-- ==== Sys2Proof/Word.lean ====
section
/-! DEFINITION. The word types of the block: the 16-bit memory word, the 15-bit data word and the register index. -/

namespace Sys2Proof

/-- A 16-bit word: what a memory cell, an operand word, the pc and an I/O port hold
(00_scope.md R7 `MEM_CELL_BITS`, `PC_BITS`, `IO_DATA_BITS`; 20_memory.md R51). -/
abbrev Word := BitVec 16

/-- A 15-bit data word, [0, 32767]: what a register and a stack entry hold, and what names an ordinary
memory cell (00_scope.md R12 "Word"; 10_state.md R20, R25). -/
abbrev Value := BitVec 15

/-- The index of one of the eight registers R0 .. R7 (10_state.md R20). -/
abbrev Reg := Fin 8

end Sys2Proof
end

