-- ==== Sys2Proof/Config.lean ====
section
/-! DEFINITION. What an implementation fixes: the constants of 00_scope.md R7, the open parameters a model takes as
arguments, and the one free value the spec leaves to the hardware. -/

namespace Sys2Proof

/-- The largest data word, `WORD_MAX` (00_scope.md R7). -/
abbrev Config.wordMax : Nat := 32767

/-- The number of ordinary memory cells, `MEM_WORDS`; their addresses are [0, 32767] (00_scope.md R7). -/
abbrev Config.memWords : Nat := 32768

/-- The address of register R0, `REG_BASE` (00_scope.md R7). -/
abbrev Config.regBase : Nat := 32768

/-- The largest legal address, `ADDR_MAX` (00_scope.md R7). -/
abbrev Config.addrMax : Nat := 32775

/-- The largest opcode number: `NUM_OPCODES` is 22, opcodes are [0, 21] (00_scope.md R7). -/
abbrev Config.opcodeMax : Nat := 21

/-- The address the image is loaded at, `LOAD_BASE` (00_scope.md R7). -/
abbrev Config.loadBase : Nat := 0

/-- The two readings of `ret` on an empty stack (00_scope.md R7 `RET_EMPTY_POLICY`; 92_eei_decisions.md D8). -/
inductive RetEmptyPolicy where
  /-- `ret` on an empty stack ends the run successfully (the source's §9; the default). -/
  | halt
  /-- `ret` on an empty stack raises StackUnderflowError (the source's §3 and §7). -/
  | fault
  deriving DecidableEq, Repr

/-- The OPEN parameters of 00_scope.md R7, arguments of the model. `State` carries one value of them, which no
step and no port event changes, so a statement about every state holds for every choice (assumption 2).
`CYCLES(op)`, the third open parameter, is read by no rule and is not here (assumption 10). -/
structure Params where
  /-- `STACK_DEPTH`: `none` is the source's unbounded stack (92_eei_decisions.md D7). -/
  stackDepth : Option Nat
  /-- `RET_EMPTY_POLICY` (92_eei_decisions.md D8). -/
  retEmptyPolicy : RetEmptyPolicy
  /-- `NEWLINE_CODE`, the code that ends each line the input channel delivers
  (93_implementation_defined.md G1; used by the channel only, never by an instruction). -/
  newlineCode : Word
  deriving DecidableEq, Repr

/-- The defaults of 00_scope.md R7 and 93_implementation_defined.md G1 (assumptions 2 and 6). -/
def Params.default : Params :=
  { stackDepth := none, retEmptyPolicy := .halt, newlineCode := 10 }

/-- FREE VALUE (assumption 4): what the `pc_out` port shows while the block waits in `in`
(10_state.md R31, 93_implementation_defined.md row 13: "any value"), a fresh one for each count of waits. -/
opaque Config.pcOutWhileWaiting : Nat → Word

end Sys2Proof
end

