-- ==== Sys2Proof/Machine/State.lean ====
section
/-! DEFINITION. The state of the block as plain data, the reasons a step can stop, and the state after reset
(10_state.md R19 to R34). -/

namespace Sys2Proof.Machine

/-- One memory cell that holds something else than 0: its word address and its 16-bit word. The Word Store is
word-addressed and has no byte order (20_memory.md R58), so a cell is a word (assumption 1). -/
abbrev Cell := Nat × Word

/-- The ordinary memory M[0..32767], sparse (20_memory.md R50 to R52): the canonical form is `Memory.wf`, and an
unlisted address reads 0, the spec's own default. -/
abbrev Memory := List Cell

/-- RUNSTATE (10_state.md R27). -/
inductive RunState where
  /-- Held in reset: the load port is live, nothing executes. -/
  | reset
  /-- The Dispatcher steps. -/
  | running
  /-- Terminated successfully. -/
  | halted
  /-- Terminated by a fault. -/
  | faulted
  deriving DecidableEq, Repr

/-- FAULT_CODE (10_state.md R28, 60_exceptions.md R190). -/
inductive FaultCode where
  | none
  | addressRange
  | valueRange
  | invalidOpcode
  | stackUnderflow
  | divideByZero
  | stackOverflow
  /-- Reserved for the external loader; the block never writes it (10_state.md R28). -/
  | loadError
  deriving DecidableEq, Repr

/-- The whole state. The fields from `mem` to `inWait` are R19's list; the last four are not state of the block
(R19: "parameters or environment of a model") and are held here because one step is a function of this value alone. -/
structure State where
  /-- M[0..32767], 16-bit cells (20_memory.md R50, R51). -/
  mem : Memory
  /-- x[0..7], 15-bit registers (R20). -/
  regs : Vector Value 8
  /-- The program counter, 16 bits (R23). -/
  pc : Word
  /-- The call stack S, top at the END (R25). -/
  stack : List Value
  /-- RUNSTATE (R27). -/
  runState : RunState
  /-- FAULT_CODE (R28). -/
  faultCode : FaultCode
  /-- FAULT_INFO (R29). -/
  faultInfo : Word
  /-- IA, the address of the opcode word of the current or last instruction (R30). -/
  ia : Word
  /-- IN_WAIT (R31). -/
  inWait : Bool
  /-- ENVIRONMENT: the codes the input channel has offered and `in` has not taken, next first (44_io.md R173). -/
  input : List Word
  /-- ENVIRONMENT: the output trace of the run, oldest first (44_io.md R172). -/
  output : List Word
  /-- PARAMETERS of 00_scope.md R7 (assumption 2). -/
  params : Params
  /-- THE MODEL'S OWN: how often the block has been found waiting; indexes the free value of `pc_out` (assumption 4). -/
  waitTick : Nat
  deriving DecidableEq, Repr

/-- Why no step is enabled (40_dispatch.md R90: "A step is enabled only when `RUNSTATE = RUNNING`"). These are not
the block's own faults, which are recorded in `State.faultCode` by a `next` state (assumption 3). -/
inductive Fault where
  /-- Raised by `step` while the block is held in reset. Safe: the spec gives no step there. -/
  | heldInReset
  /-- Raised by `step` after a successful halt. Safe: HALTED is terminal (10_state.md R27). -/
  | runHalted
  /-- Raised by `step` after a fault of the block. Safe: FAULTED is terminal (10_state.md R27). -/
  | runFaulted
  /-- Raised by `in` when no code is offered: the step is not enabled (40_dispatch.md R90) and the block stays as it is,
  RUNNING with IN_WAIT = 1, stuck until the host offers a code (44_io.md R176). Safe: the spec gives no step there. -/
  | waitingForInput
  deriving DecidableEq, Repr

/-- Why the model gives an instruction no meaning. -/
inductive Refusal where
  /-- Raised by an arm of `exec` whose instruction has no meaning yet (there is none). Safe: the model stops. -/
  | notModelled (mnemonic : String)
  deriving DecidableEq, Repr

/-- The state at reset release with no image loaded (10_state.md R33, 70_reset_and_hazards.md R222). -/
def State.reset : State :=
  { mem := []
    regs := Vector.replicate 8 0
    pc := 0
    stack := []
    runState := .running
    faultCode := .none
    faultInfo := 0
    ia := 0
    inWait := false
    input := []
    output := []
    params := Params.default
    waitTick := 0 }

end Sys2Proof.Machine
end

