-- ==== Sys2Proof/Machine/Flags.lean ====
section
/-! DEFINITION. The results the ALU computes and the condition the branches test. The block has NO flags (10_state.md R26):
comparisons give the word 0 or 1, and wrap-around leaves no trace. All numbers are unsigned (42_alu.md R130). -/

namespace Sys2Proof.Machine

/-- `b == c` as a word (42_alu.md R131). -/
def eqResult (b c : Word) : Word := if b.toNat = c.toNat then 1 else 0

/-- `b > c` as a word, unsigned and strict (42_alu.md R132). -/
def gtResult (b c : Word) : Word := if c.toNat < b.toNat then 1 else 0

/-- The exact sum reduced modulo 32768 (42_alu.md R133). -/
def addResult (b c : Word) : Word := BitVec.ofNat 16 ((b.toNat + c.toNat) % 32768)

/-- The exact product reduced modulo 32768 (42_alu.md R134). -/
def multResult (b c : Word) : Word := BitVec.ofNat 16 ((b.toNat * c.toNat) % 32768)

/-- The natural-number remainder, for `c` not 0 (42_alu.md R135). -/
def modResult (b c : Word) : Word := BitVec.ofNat 16 (b.toNat % c.toNat)

/-- Bitwise AND of the 16-bit operands (42_alu.md R136). -/
def andResult (b c : Word) : Word := b &&& c

/-- Bitwise OR of the 16-bit operands (42_alu.md R137). -/
def orResult (b c : Word) : Word := b ||| c

/-- `b XOR 0x7FFF`: bit 15 of `b` survives (42_alu.md R138, 90_conflicts.md C5). -/
def notResult (b : Word) : Word := b ^^^ 0x7FFF

/-- The condition `jt` and `jf` test: any number but 0 is true (43_control_transfer.md R152, R153). -/
def condTrue (a : Word) : Bool := a != 0

end Sys2Proof.Machine
end

