-- ==== Sys2Proof/Syntax.lean ====
section
/-! DEFINITION. The instruction set as syntax: the operand classes and the 22 instructions, one constructor for each row
of spec/opcode_table.json. -/

namespace Sys2Proof

/-- A value operand, by the three classes of 30_encoding.md R72. Its meaning is `Deref` (20_memory.md R53). -/
inductive Operand where
  /-- A literal in [0, 32767]. -/
  | lit (n : Value)
  /-- A register alias, the word 32768 + i. -/
  | reg (r : Reg)
  /-- An out-of-range literal, a word in [32776, 65535] (`Operand.wf` checks the range). -/
  | high (w : Word)
  deriving DecidableEq, Repr

/-- A destination operand, by what the raw word names (30_encoding.md R74). -/
inductive Dest where
  /-- An ordinary memory cell, [0, 32767]. -/
  | cell (a : Value)
  /-- A register, the address 32768 + i. -/
  | reg (r : Reg)
  /-- An illegal address in [32776, 65535] (`Dest.wf` checks the range), which faults when written. -/
  | illegal (w : Word)
  deriving DecidableEq, Repr

/-- The instructions (30_encoding.md R75), operands in encoded order `a`, `b`, `c`. -/
inductive Instr where
  /-- 0 `halt` (R96). -/
  | halt
  /-- 1 `set *a b` (R110). -/
  | set (a : Dest) (b : Operand)
  /-- 2 `push a` (R111). -/
  | push (a : Operand)
  /-- 3 `pop *a` (R112). -/
  | pop (a : Dest)
  /-- 4 `eq *a b c` (R131). -/
  | eq (a : Dest) (b c : Operand)
  /-- 5 `gt *a b c` (R132). -/
  | gt (a : Dest) (b c : Operand)
  /-- 6 `jmp a` (R151). -/
  | jmp (a : Operand)
  /-- 7 `jt a b` (R152). -/
  | jt (a b : Operand)
  /-- 8 `jf a b` (R153). -/
  | jf (a b : Operand)
  /-- 9 `add *a b c` (R133). -/
  | add (a : Dest) (b c : Operand)
  /-- 10 `mult *a b c` (R134). -/
  | mult (a : Dest) (b c : Operand)
  /-- 11 `mod *a b c` (R135). -/
  | mod (a : Dest) (b c : Operand)
  /-- 12 `and *a b c` (R136). -/
  | and (a : Dest) (b c : Operand)
  /-- 13 `or *a b c` (R137). -/
  | or (a : Dest) (b c : Operand)
  /-- 14 `not *a b` (R138). -/
  | not (a : Dest) (b : Operand)
  /-- 15 `rmem *a b` (R113). -/
  | rmem (a : Dest) (b : Operand)
  /-- 16 `wmem a b` (R114); `a` is a value operand, the one exception of R76. -/
  | wmem (a b : Operand)
  /-- 17 `call a` (R154). -/
  | call (a : Operand)
  /-- 18 `ret` (R155). -/
  | ret
  /-- 19 `out a` (R170). -/
  | out (a : Operand)
  /-- 20 `in *a` (R171); `in` is a word of Lean's own, hence the name. -/
  | input (a : Dest)
  /-- 21 `noop` (R97). -/
  | noop
  deriving DecidableEq, Repr

end Sys2Proof
end

