-- ==== Sys2Proof/WellFormed.lean ====
section
/-! DEFINITION. Which instruction terms stand for words: the operand classes of 30_encoding.md R72 and R74 are disjoint, so
an out-of-range literal or an illegal address lies above every register alias. -/

namespace Sys2Proof

/-- An out-of-range literal is in [32776, 65535] (30_encoding.md R72). -/
def Operand.wf : Operand → Bool
  | .lit _ => true
  | .reg _ => true
  | .high w => decide (Config.addrMax < w.toNat)

/-- An illegal destination address is in [32776, 65535] (30_encoding.md R74). -/
def Dest.wf : Dest → Bool
  | .cell _ => true
  | .reg _ => true
  | .illegal w => decide (Config.addrMax < w.toNat)

/-- Every operand is well-formed. -/
def Instr.wf : Instr → Bool
  | .halt => true
  | .set a b => a.wf && b.wf
  | .push a => a.wf
  | .pop a => a.wf
  | .eq a b c => a.wf && b.wf && c.wf
  | .gt a b c => a.wf && b.wf && c.wf
  | .jmp a => a.wf
  | .jt a b => a.wf && b.wf
  | .jf a b => a.wf && b.wf
  | .add a b c => a.wf && b.wf && c.wf
  | .mult a b c => a.wf && b.wf && c.wf
  | .mod a b c => a.wf && b.wf && c.wf
  | .and a b c => a.wf && b.wf && c.wf
  | .or a b c => a.wf && b.wf && c.wf
  | .not a b => a.wf && b.wf
  | .rmem a b => a.wf && b.wf
  | .wmem a b => a.wf && b.wf
  | .call a => a.wf
  | .ret => true
  | .out a => a.wf
  | .input a => a.wf
  | .noop => true

end Sys2Proof
end

