-- ==== Sys2Proof/Decode.lean ====
section
/-! DEFINITION. The opcode map, the decoder from words to an instruction (total, rejecting by name) and the encoder
(30_encoding.md R70 to R79). -/

namespace Sys2Proof

/-- Why a list of words is no instruction. -/
inductive DecodeError where
  /-- There is no opcode word. -/
  | noWord
  /-- The opcode word is above 21 (30_encoding.md R78). -/
  | invalidOpcode (op : Word)
  /-- The opcode is legal and the list ends before its operands do. -/
  | truncated (op : Word)
  deriving DecidableEq, Repr

/-- How one operand position is fetched: raw (a destination) or dereferenced (a value) (30_encoding.md R73, R74). -/
inductive Policy where
  | dest
  | value
  deriving DecidableEq, Repr

/-- The static table of 30_encoding.md R75 (also 40_dispatch.md R95): opcode number to the policy of each operand. -/
def opTable : Nat → Option (List Policy)
  | 0 => some []
  | 1 => some [.dest, .value]
  | 2 => some [.value]
  | 3 => some [.dest]
  | 4 => some [.dest, .value, .value]
  | 5 => some [.dest, .value, .value]
  | 6 => some [.value]
  | 7 => some [.value, .value]
  | 8 => some [.value, .value]
  | 9 => some [.dest, .value, .value]
  | 10 => some [.dest, .value, .value]
  | 11 => some [.dest, .value, .value]
  | 12 => some [.dest, .value, .value]
  | 13 => some [.dest, .value, .value]
  | 14 => some [.dest, .value]
  | 15 => some [.dest, .value]
  | 16 => some [.value, .value]
  | 17 => some [.value]
  | 18 => some []
  | 19 => some [.value]
  | 20 => some [.dest]
  | 21 => some []
  | _ => none

/-- How many operand words follow the opcode word `op`; `none` for an illegal opcode. The whole 16-bit word is the
opcode, raw (30_encoding.md R71, R79). -/
def arity (op : Word) : Option Nat := (opTable op.toNat).map List.length

/-- The register that the alias word `w` in [32768, 32775] names, i = w[2:0] (30_encoding.md R72). -/
def regOfWord (w : Word) : Reg := Fin.ofNat 8 (w.toNat - Config.regBase)

/-- The class of a value operand's word (30_encoding.md R72, R73). -/
def Operand.ofWord (w : Word) : Operand :=
  if w.toNat ≤ Config.wordMax then .lit (w.setWidth 15)
  else if w.toNat ≤ Config.addrMax then .reg (regOfWord w)
  else .high w

/-- What a destination operand's raw word names (30_encoding.md R74). -/
def Dest.ofWord (w : Word) : Dest :=
  if w.toNat ≤ Config.wordMax then .cell (w.setWidth 15)
  else if w.toNat ≤ Config.addrMax then .reg (regOfWord w)
  else .illegal w

/-- Reads one operand word. -/
def take1 (f : Word → Instr) : List Word → Option (Instr × List Word)
  | a :: ws => some (f a, ws)
  | [] => none

/-- Reads two operand words. -/
def take2 (f : Word → Word → Instr) : List Word → Option (Instr × List Word)
  | a :: b :: ws => some (f a b, ws)
  | _ => none

/-- Reads three operand words. -/
def take3 (f : Word → Word → Word → Instr) : List Word → Option (Instr × List Word)
  | a :: b :: c :: ws => some (f a b c, ws)
  | _ => none

/-- The instruction of opcode number `op` with its operands at the front of `ws` (30_encoding.md R75);
`none` if there is no such opcode or `ws` is too short. -/
def decodeOperands (op : Nat) (ws : List Word) : Option (Instr × List Word) :=
  match op with
  | 0 => some (.halt, ws)
  | 1 => take2 (fun a b => .set (.ofWord a) (.ofWord b)) ws
  | 2 => take1 (fun a => .push (.ofWord a)) ws
  | 3 => take1 (fun a => .pop (.ofWord a)) ws
  | 4 => take3 (fun a b c => .eq (.ofWord a) (.ofWord b) (.ofWord c)) ws
  | 5 => take3 (fun a b c => .gt (.ofWord a) (.ofWord b) (.ofWord c)) ws
  | 6 => take1 (fun a => .jmp (.ofWord a)) ws
  | 7 => take2 (fun a b => .jt (.ofWord a) (.ofWord b)) ws
  | 8 => take2 (fun a b => .jf (.ofWord a) (.ofWord b)) ws
  | 9 => take3 (fun a b c => .add (.ofWord a) (.ofWord b) (.ofWord c)) ws
  | 10 => take3 (fun a b c => .mult (.ofWord a) (.ofWord b) (.ofWord c)) ws
  | 11 => take3 (fun a b c => .mod (.ofWord a) (.ofWord b) (.ofWord c)) ws
  | 12 => take3 (fun a b c => .and (.ofWord a) (.ofWord b) (.ofWord c)) ws
  | 13 => take3 (fun a b c => .or (.ofWord a) (.ofWord b) (.ofWord c)) ws
  | 14 => take2 (fun a b => .not (.ofWord a) (.ofWord b)) ws
  | 15 => take2 (fun a b => .rmem (.ofWord a) (.ofWord b)) ws
  | 16 => take2 (fun a b => .wmem (.ofWord a) (.ofWord b)) ws
  | 17 => take1 (fun a => .call (.ofWord a)) ws
  | 18 => some (.ret, ws)
  | 19 => take1 (fun a => .out (.ofWord a)) ws
  | 20 => take1 (fun a => .input (.ofWord a)) ws
  | 21 => some (.noop, ws)
  | _ => none

/-- Reads one instruction from the front of a list of words and gives the words after it. The opcode word is raw and
decides the length alone (30_encoding.md R71, R78, R79). -/
def decode : List Word → Except DecodeError (Instr × List Word)
  | [] => .error .noWord
  | op :: ws =>
    if Config.opcodeMax < op.toNat then .error (.invalidOpcode op)
    else
      match decodeOperands op.toNat ws with
      | some r => .ok r
      | none => .error (.truncated op)

/-- The word of a value operand (30_encoding.md R72). -/
def Operand.word : Operand → Word
  | .lit n => n.setWidth 16
  | .reg r => BitVec.ofNat 16 (Config.regBase + r.val)
  | .high w => w

/-- The raw word of a destination operand, which is the address it names (30_encoding.md R74). -/
def Dest.addr : Dest → Word
  | .cell a => a.setWidth 16
  | .reg r => BitVec.ofNat 16 (Config.regBase + r.val)
  | .illegal w => w

/-- The words of an instruction, opcode first (30_encoding.md R70, R75). -/
def encode : Instr → List Word
  | .halt => [0]
  | .set a b => [1, a.addr, b.word]
  | .push a => [2, a.word]
  | .pop a => [3, a.addr]
  | .eq a b c => [4, a.addr, b.word, c.word]
  | .gt a b c => [5, a.addr, b.word, c.word]
  | .jmp a => [6, a.word]
  | .jt a b => [7, a.word, b.word]
  | .jf a b => [8, a.word, b.word]
  | .add a b c => [9, a.addr, b.word, c.word]
  | .mult a b c => [10, a.addr, b.word, c.word]
  | .mod a b c => [11, a.addr, b.word, c.word]
  | .and a b c => [12, a.addr, b.word, c.word]
  | .or a b c => [13, a.addr, b.word, c.word]
  | .not a b => [14, a.addr, b.word]
  | .rmem a b => [15, a.addr, b.word]
  | .wmem a b => [16, a.word, b.word]
  | .call a => [17, a.word]
  | .ret => [18]
  | .out a => [19, a.word]
  | .input a => [20, a.addr]
  | .noop => [21]

/-- The words of an instruction given as one number, `nbits` bits of which count: word k is bits 16k+15 .. 16k, four
words being the longest instruction (30_encoding.md R70). -/
def wordsOfNumber (nbits w : Nat) : List Word :=
  let v := w % 2 ^ nbits
  [BitVec.ofNat 16 v, BitVec.ofNat 16 (v / 2 ^ 16), BitVec.ofNat 16 (v / 2 ^ 32), BitVec.ofNat 16 (v / 2 ^ 48)]

/-- The decoder on one number, in the numbering of spec/opcode_table.json. -/
def decodeTableWord (nbits w : Nat) : Option Instr :=
  match decode (wordsOfNumber nbits w) with
  | .ok (i, _) => some i
  | .error _ => none

end Sys2Proof
end

