-- ==== Sys2Proof/Machine/Ops.lean ====
section
/-! DEFINITION. The named operations over memory, registers, the call stack, the run status and the I/O streams: the
primitives of 00_scope.md R10, and taking a fault as one operation (60_exceptions.md R191). -/

namespace Sys2Proof.Machine

/-! ### Memory -/

/-- The canonical form: addresses of ordinary memory, strictly rising, and no listed 0
(20_memory.md R52: an unwritten cell reads 0). -/
abbrev Memory.wf (m : Memory) : Prop :=
  m.Pairwise (fun c d => c.1 < d.1) ∧ ∀ c ∈ m, c.1 < Config.memWords ∧ c.2 ≠ 0

/-- `MemRead(a, 1)`: the word of cell `a`, 0 if never written (00_scope.md R10, 20_memory.md R52). -/
def Memory.read : Memory → Nat → Word
  | [], _ => 0
  | c :: m, a => if c.1 = a then c.2 else Memory.read m a

/-- The memory without cell `a`. -/
def Memory.erase (m : Memory) (a : Nat) : Memory := m.filter (fun c => c.1 != a)

/-- Lists cell `a` before the first higher address. -/
def Memory.insert : Memory → Nat → Word → Memory
  | [], a, v => [(a, v)]
  | c :: m, a, v => if a < c.1 then (a, v) :: c :: m else c :: Memory.insert m a v

/-- `MemWrite(a, 1, v)`: the raw write of one cell (00_scope.md R10), keeping the canonical form. -/
def Memory.write (m : Memory) (a : Nat) (v : Word) : Memory :=
  if v = 0 then m.erase a else (m.erase a).insert a v

/-! ### How an operation ends -/

/-- The result of an operation inside a step: it goes on with a value, or the step ends here with the state it
leaves (a raised fault, 60_exceptions.md R191). -/
inductive Res (α : Type) where
  | done (v : α) (s : State)
  | stop (s : State)

/-- Statement order: "a `raise` ends the step and no later statement of that step executes" (00_scope.md R10). -/
def Res.andThen {α β : Type} (r : Res α) (k : α → State → Res β) : Res β :=
  match r with
  | .done v s => k v s
  | .stop s => .stop s

/-- The outcome of a whole instruction: either way the machine has a next state (60_exceptions.md R192). -/
def Res.outcome (r : Res Unit) : Host.Outcome State Fault Refusal :=
  match r with
  | .done _ s => .next s
  | .stop s => .next s

/-! ### Updates of one part of the state -/

/-- `x[r]` (10_state.md R20). -/
def readReg (r : Reg) (s : State) : Value := s.regs[r]

/-- `x[r] <- v` (10_state.md R20). -/
def writeReg (r : Reg) (v : Value) (s : State) : State := { s with regs := s.regs.set r v }

/-- `M[a] <- v`, the raw cell write (20_memory.md R51). -/
def writeCell (a : Nat) (v : Word) (s : State) : State := { s with mem := s.mem.write a v }

/-- `pc <- target` (43_control_transfer.md R150: not checked, not scaled). -/
def jump (target : Word) (s : State) : State := { s with pc := target }

/-- `IA <- pc`, the status latch at the start of every step (10_state.md R30, 40_dispatch.md R91). -/
def latchIa (s : State) : State := { s with ia := s.pc }

/-- Replaces the call stack. -/
def setStack (st : List Value) (s : State) : State := { s with stack := st }

/-- TAKING A FAULT, `raise E(info)`: the status is recorded and everything else is left as it is; there is no handler
and control goes nowhere (60_exceptions.md R191, R192). -/
def raise (e : FaultCode) (info : Word) (s : State) : State :=
  { s with runState := .faulted, faultCode := e, faultInfo := info }

/-- `Halt()`: the run ends successfully (40_dispatch.md R96). -/
def haltRun (s : State) : State := { s with runState := .halted }

/-- `Emit(v)`: one output event, never blocking (44_io.md R172). -/
def emit (v : Word) (s : State) : State := { s with output := s.output ++ [v] }

/-- One code is taken and IN_WAIT is 0 again (44_io.md R173). -/
def consumeInput (rest : List Word) (s : State) : State := { s with input := rest, inWait := false }

/-! ### The address-space mux -/

/-- The register at address `a` in [32768, 32775] (20_memory.md R56). -/
def regOfAddr (a : Word) : Reg := Fin.ofNat 8 (a.toNat - Config.regBase)

/-- `StoreGet(a)` (20_memory.md R54). -/
def storeGet (a : Word) (s : State) : Res Word :=
  if Config.addrMax < a.toNat then .stop (raise .addressRange a s)
  else if Config.regBase ≤ a.toNat then .done ((readReg (regOfAddr a) s).setWidth 16) s
  else .done (s.mem.read a.toNat) s

/-- `StoreSet(a, v)`: the address is checked before the value, and a faulting write writes nothing
(20_memory.md R55). -/
def storeSet (a v : Word) (s : State) : Res Unit :=
  if Config.addrMax < a.toNat then .stop (raise .addressRange a s)
  else if Config.wordMax < v.toNat then .stop (raise .valueRange v s)
  else if Config.regBase ≤ a.toNat then .done () (writeReg (regOfAddr a) (v.setWidth 15) s)
  else .done () (writeCell a.toNat v s)

/-! ### The call stack -/

/-- A finite `STACK_DEPTH` is reached (10_state.md R25: "Size() = STACK_DEPTH"). -/
def stackFull (s : State) : Bool :=
  match s.params.stackDepth with
  | none => false
  | some d => s.stack.length == d

/-- `Push(v)`: the value is checked before the depth (10_state.md R25). -/
def push (v : Word) (s : State) : Res Unit :=
  if Config.wordMax < v.toNat then .stop (raise .valueRange v s)
  else if stackFull s then .stop (raise .stackOverflow v s)
  else .done () (setStack (s.stack ++ [v.setWidth 15]) s)

/-- `Pop()` (10_state.md R25). -/
def pop (s : State) : Res Value :=
  match s.stack.getLast? with
  | none => .stop (raise .stackUnderflow 0 s)
  | some v => .done v (setStack s.stack.dropLast s)

/-! ### Input -/

/-- `Receive()`: takes the head of the input stream; with no head the `in` step is not enabled (44_io.md R173). -/
def receive (s : State) : Option (Word × State) :=
  match s.input with
  | [] => none
  | k :: rest => some (k, consumeInput rest s)

end Sys2Proof.Machine
end

