-- ==== Sys2Proof/Machine/Operands.lean ====
section
/-! DEFINITION. What an operand stands for when its instruction executes (30_encoding.md R72 to R74, 20_memory.md R53). A
destination's address is `Dest.addr` of Sys2Proof/Decode.lean. -/

namespace Sys2Proof.Machine

/-- `Deref(w)` on a raw word (20_memory.md R53): one level, never faulting. -/
def deref (w : Word) (s : State) : Word :=
  if Config.regBase ≤ w.toNat ∧ w.toNat ≤ Config.addrMax then (readReg (regOfAddr w) s).setWidth 16 else w

/-- The number a value operand stands for, `Deref` of its word by class (30_encoding.md R73). -/
def valueOf : Operand → State → Word
  | .lit n, _ => n.setWidth 16
  | .reg r, s => (readReg r s).setWidth 16
  | .high w, _ => w

end Sys2Proof.Machine
end

