-- ==== Sys2Proof/Machine/Alu.lean ====
section
/-! DEFINITION. `eq`, `gt`, `add`, `mult`, `mod`, `and`, `or`, `not` (42_alu.md): the result first, then the validated
store. -/

namespace Sys2Proof.Machine

/-- `eq *a b c` (R131). -/
def execEq (a : Dest) (b c : Operand) (s : State) : Host.Outcome State Fault Refusal :=
  (storeSet a.addr (eqResult (valueOf b s) (valueOf c s)) s).outcome

/-- `gt *a b c` (R132). -/
def execGt (a : Dest) (b c : Operand) (s : State) : Host.Outcome State Fault Refusal :=
  (storeSet a.addr (gtResult (valueOf b s) (valueOf c s)) s).outcome

/-- `add *a b c` (R133). -/
def execAdd (a : Dest) (b c : Operand) (s : State) : Host.Outcome State Fault Refusal :=
  (storeSet a.addr (addResult (valueOf b s) (valueOf c s)) s).outcome

/-- `mult *a b c` (R134). -/
def execMult (a : Dest) (b c : Operand) (s : State) : Host.Outcome State Fault Refusal :=
  (storeSet a.addr (multResult (valueOf b s) (valueOf c s)) s).outcome

/-- `mod *a b c` (R135): a zero divisor raises DivideByZeroError(b) before the destination is checked. -/
def execMod (a : Dest) (b c : Operand) (s : State) : Host.Outcome State Fault Refusal :=
  if valueOf c s = 0 then .next (raise .divideByZero (valueOf b s) s)
  else (storeSet a.addr (modResult (valueOf b s) (valueOf c s)) s).outcome

/-- `and *a b c` (R136). -/
def execAnd (a : Dest) (b c : Operand) (s : State) : Host.Outcome State Fault Refusal :=
  (storeSet a.addr (andResult (valueOf b s) (valueOf c s)) s).outcome

/-- `or *a b c` (R137). -/
def execOr (a : Dest) (b c : Operand) (s : State) : Host.Outcome State Fault Refusal :=
  (storeSet a.addr (orResult (valueOf b s) (valueOf c s)) s).outcome

/-- `not *a b` (R138). -/
def execNot (a : Dest) (b : Operand) (s : State) : Host.Outcome State Fault Refusal :=
  (storeSet a.addr (notResult (valueOf b s)) s).outcome

end Sys2Proof.Machine
end

