-- ==== Sys2Proof/Machine/Control.lean ====
section
/-! DEFINITION. `jmp`, `jt`, `jf`, `call`, `ret` (43_control_transfer.md) and `halt`, `noop` (40_dispatch.md R96, R97). -/

namespace Sys2Proof.Machine

/-- `jmp a` (R151). -/
def execJmp (a : Operand) (s : State) : Host.Outcome State Fault Refusal :=
  .next (jump (valueOf a s) s)

/-- `jt a b` (R152). -/
def execJt (a b : Operand) (s : State) : Host.Outcome State Fault Refusal :=
  .next (if condTrue (valueOf a s) then jump (valueOf b s) s else s)

/-- `jf a b` (R153). -/
def execJf (a b : Operand) (s : State) : Host.Outcome State Fault Refusal :=
  .next (if condTrue (valueOf a s) then s else jump (valueOf b s) s)

/-- `call a` (R154): the push first; on its fault the pc is not redirected. -/
def execCall (a : Operand) (s : State) : Host.Outcome State Fault Refusal :=
  ((push s.pc s).andThen fun _ s' => .done () (jump (valueOf a s) s')).outcome

/-- `ret` (R155): on an empty stack the parameter `RET_EMPTY_POLICY` decides. -/
def execRet (s : State) : Host.Outcome State Fault Refusal :=
  if s.stack = [] then
    match s.params.retEmptyPolicy with
    | .halt => .next (haltRun s)
    | .fault => .next (raise .stackUnderflow 0 s)
  else ((pop s).andThen fun v s' => .done () (jump (v.setWidth 16) s')).outcome

/-- `halt` (R96). -/
def execHalt (s : State) : Host.Outcome State Fault Refusal := .next (haltRun s)

/-- `noop` (R97). -/
def execNoop (s : State) : Host.Outcome State Fault Refusal := .next s

end Sys2Proof.Machine
end

