-- ==== Sys2Proof/Machine/DataMovement.lean ====
section
/-! DEFINITION. `set`, `push`, `pop`, `rmem`, `wmem` (41_data_movement.md). A meaning runs in the state the fetch leaves:
IA is the instruction's address A and the pc is A + L (40_dispatch.md R91). -/

namespace Sys2Proof.Machine

/-- `set *a b` (R110). -/
def execSet (a : Dest) (b : Operand) (s : State) : Host.Outcome State Fault Refusal :=
  (storeSet a.addr (valueOf b s) s).outcome

/-- `push a` (R111). -/
def execPush (a : Operand) (s : State) : Host.Outcome State Fault Refusal :=
  (push (valueOf a s) s).outcome

/-- `pop *a` (R112): the top is removed before the store is checked, and stays removed. -/
def execPop (a : Dest) (s : State) : Host.Outcome State Fault Refusal :=
  ((pop s).andThen fun v s' => storeSet a.addr (v.setWidth 16) s').outcome

/-- `rmem *a b` (R113): the read address is checked before the store. -/
def execRmem (a : Dest) (b : Operand) (s : State) : Host.Outcome State Fault Refusal :=
  ((storeGet (valueOf b s) s).andThen fun v s' => storeSet a.addr v s').outcome

/-- `wmem a b` (R114): `a` is dereferenced, so this writes memory, never a register. -/
def execWmem (a b : Operand) (s : State) : Host.Outcome State Fault Refusal :=
  (storeSet (valueOf a s) (valueOf b s) s).outcome

end Sys2Proof.Machine
end

