-- ==== Sys2Proof/Machine/Io.lean ====
section
/-! DEFINITION. `out` and `in` (44_io.md). -/

namespace Sys2Proof.Machine

/-- `out a` (R170): the 16-bit code is emitted unchecked. -/
def execOut (a : Operand) (s : State) : Host.Outcome State Fault Refusal :=
  .next (emit (valueOf a s) s)

/-- `in *a` (R171): the code is consumed before the store is checked. With no code offered the step is not enabled
(R173, R176; 40_dispatch.md R90). -/
def execIn (a : Dest) (s : State) : Host.Outcome State Fault Refusal :=
  match receive s with
  | none => .fault .waitingForInput
  | some (k, s') => (storeSet a.addr k s').outcome

end Sys2Proof.Machine
end

