-- ==== Sys2Proof/Machine/Fetch.lean ====
section
/-! DEFINITION. Fetching one instruction from the Word Store at the pc (40_dispatch.md R91 to R94, R98), the wait at an
`in` (10_state.md R31), and placing an instruction. -/

namespace Sys2Proof.Machine

/-- `FetchWord()`: the word at the pc, which then advances; a pc above 32767 raises AddressRangeError(pc)
before any read (40_dispatch.md R92). -/
def fetchWord (s : State) : Res Word :=
  if Config.wordMax < s.pc.toNat then .stop (raise .addressRange s.pc s)
  else .done (s.mem.read s.pc.toNat) (jump (s.pc + 1) s)

/-- The operand words, in encoded order; a fetch that faults ends the step before the rest
(40_dispatch.md R94). -/
def fetchWords : Nat → State → Res (List Word)
  | 0, s => .done [] s
  | n + 1, s =>
    (fetchWord s).andThen fun w s' =>
      (fetchWords n s').andThen fun ws s'' => .done (w :: ws) s''

/-- Reads the fetched words as an instruction. The error is never taken: `arity` and `decode` are of one table. -/
def decodeFetched (op : Word) (ws : List Word) (s : State) : Res Instr :=
  match decode (op :: ws) with
  | .ok (i, _) => .done i s
  | .error _ => .stop (raise .invalidOpcode op s)

/-- The opcode fetch, the opcode check and the operand fetches of 40_dispatch.md R91, giving the decoded instruction.
A value operand is dereferenced when its meaning runs: no fetch writes a register, so that is the value at its
fetch (R94, assumption 7). -/
def fetchInstr (s : State) : Res Instr :=
  (fetchWord s).andThen fun op s' =>
    match arity op with
    | none => .stop (raise .invalidOpcode op s')
    | some n => (fetchWords n s').andThen fun ws s'' => decodeFetched op ws s''

/-! ### The wait -/

/-- The block is at an `in`, whose words are in memory, and no input code has been received (10_state.md R31): the one
condition of a running block in which no step is enabled (40_dispatch.md R90). -/
abbrev waitsAtIn (s : State) : Prop :=
  s.runState = .running ∧ s.input = [] ∧ s.pc.toNat ≤ 32766 ∧ s.mem.read s.pc.toNat = 20

/-- IN_WAIT as the input channel makes it: 1 exactly while the block waits at an `in`. Nothing else of the block changes,
the `in` step not having happened (10_state.md R31, assumption 5). -/
def settleWait (s : State) : State :=
  if waitsAtIn s then { s with inWait := true, waitTick := s.waitTick + 1 } else { s with inWait := false }

/-- The outcome of an instruction with IN_WAIT as the state it leads to has it. -/
def settle (o : Host.Outcome State Fault Refusal) : Host.Outcome State Fault Refusal :=
  match o with
  | .next s => .next (settleWait s)
  | .fault r => .fault r
  | .refused r => .refused r

/-! ### Placing an instruction -/

/-- Writes words to ordinary memory from address `a` up, raw; words past address 32767 are dropped. -/
def placeWords : Nat → List Word → Memory → Memory
  | _, [], m => m
  | a, w :: ws, m => placeWords (a + 1) ws (if a < Config.memWords then m.write a w else m)

/-- `s` with the words `ws` at the pc, where the next step fetches. -/
def placeAtPc (ws : List Word) (s : State) : State := { s with mem := placeWords s.pc.toNat ws s.mem }

/-- `s` with one code to take if it is at an `in` and would wait there, so that its next step is enabled. -/
def enableIn (s : State) : State := if waitsAtIn s then { s with input := [0] } else s

end Sys2Proof.Machine
end

