-- ==== Sys2Proof/Machine/Step.lean ====
section
/-! DEFINITION. The Dispatcher's step (40_dispatch.md R90, R91) and the placing of the next instruction. -/

namespace Sys2Proof.Machine

/-- One step: enabled only when RUNSTATE = RUNNING; IA is latched, the instruction is fetched, and it executes
(40_dispatch.md R90, R91). An `in` is enabled only when a code is available: with none, `exec` gives no next state.
IN_WAIT is then what the state the step leads to makes it (10_state.md R31). -/
def step (s : State) : Host.Outcome State Fault Refusal :=
  match s.runState with
  | .reset => .fault .heldInReset
  | .halted => .fault .runHalted
  | .faulted => .fault .runFaulted
  | .running =>
    match fetchInstr (latchIa s) with
    | .done i s' => settle (exec i s')
    | .stop s' => .next (settleWait s')

/-- `s` with the instruction `w` of spec/opcode_table.json's numbering at the pc: the words a load would have placed
there (20_memory.md R64). For an `in` with no code offered a code is offered too, or the next step would not be
enabled (assumption 8). -/
def State.withFetchWord (s : State) (nbits w : Nat) : State :=
  enableIn (placeAtPc (wordsOfNumber nbits w) s)

end Sys2Proof.Machine
end

