-- ==== Sys2Proof/Machine/Ports.lean ====
section
/-! DEFINITION. The block boundary (00_scope.md R8): what the output ports show, and what the host can do to the block
between steps: reset, the image-load port and the input channel (20_memory.md R64, 44_io.md R174 to R176,
70_reset_and_hazards.md R220 to R222). -/

namespace Sys2Proof.Machine

/-! ### Output ports -/

/-- The encoding of RUNSTATE on `run_state` (10_state.md R27). -/
def runStateBits : RunState → BitVec 2
  | .reset => 0
  | .running => 1
  | .halted => 2
  | .faulted => 3

/-- The encoding of FAULT_CODE on `fault_code` (10_state.md R28). -/
def faultCodeBits : FaultCode → BitVec 3
  | .none => 0
  | .addressRange => 1
  | .valueRange => 2
  | .invalidOpcode => 3
  | .stackUnderflow => 4
  | .divideByZero => 5
  | .stackOverflow => 6
  | .loadError => 7

/-- The output ports that show state (00_scope.md R8). `out_valid` and `out_data` are strobes: see `outStrobes`. -/
structure OutPorts where
  inReady : Bool
  runState : BitVec 2
  inWait : Bool
  faultCode : BitVec 3
  faultInfo : Word
  iaOut : Word
  pcOut : Word
  deriving DecidableEq, Repr

/-- What `pc_out` shows: the pc, and a free value while the block waits in `in` (10_state.md R23, R31). -/
def pcOut (s : State) : Word :=
  if s.inWait then Config.pcOutWhileWaiting s.waitTick else s.pc

/-- The ports between steps. `in_ready` is 1 exactly while the block waits: `Receive` sets and clears it together with
IN_WAIT (44_io.md R173). -/
def outPorts (s : State) : OutPorts :=
  { inReady := s.inWait
    runState := runStateBits s.runState
    inWait := s.inWait
    faultCode := faultCodeBits s.faultCode
    faultInfo := s.faultInfo
    iaOut := s.ia
    pcOut := pcOut s }

/-- The `out_data` values strobed with `out_valid = 1` by a step from `s` to `t`, in order (44_io.md R172). -/
def outStrobes (s t : State) : List Word := t.output.drop s.output.length

/-! ### Host events -/

/-- One thing the host does at the input ports, between two steps (00_scope.md R8). -/
inductive HostEvent where
  /-- `rst` rises. -/
  | assertReset
  /-- A cycle with `load_we = 1`. -/
  | load (addr : Value) (data : Word)
  /-- `rst` falls. -/
  | releaseReset
  /-- The input channel offers one more code. -/
  | offer (code : Word)
  /-- The input channel obtains a full line, given without its newline code. -/
  | offerLine (codes : List Word)
  /-- A cycle with `in_valid = 0`. -/
  | noCode
  deriving DecidableEq, Repr

/-- The first cycle of reset: everything R33 lists takes its reset value and RUNSTATE is RESET
(70_reset_and_hazards.md R220). The channel's codes are outside the block and stay; the output trace belongs to the run
and starts anew (assumption 9). Reset already held stays as it is: only its first cycle clears. -/
def assertReset (s : State) : State :=
  if s.runState = .reset then s
  else
    { State.reset with
      runState := .reset
      input := s.input
      params := s.params
      waitTick := s.waitTick }

/-- The image-load port: a raw 16-bit word into ordinary memory, live only while in reset (20_memory.md R64). -/
def loadPort (addr : Value) (data : Word) (s : State) : State :=
  if s.runState = .reset then writeCell addr.toNat data s else s

/-- Reset release: the block is running and not waiting (70_reset_and_hazards.md R222). A program that starts with an
`in` comes to wait in the first cycle without a code (`HostEvent.noCode`). -/
def releaseReset (s : State) : State :=
  if s.runState = .reset then { s with runState := .running } else s

/-- The input channel's codes grow at the end, and a block that waits waits no more (44_io.md R173, R174;
10_state.md R31). -/
def offerCodes (codes : List Word) (s : State) : State := settleWait { s with input := s.input ++ codes }

/-- The effect of a host event. A line is delivered as its codes and then one newline code (44_io.md R175); in a cycle
without a code a block at an `in` waits (44_io.md R173). -/
def hostEvent : HostEvent → State → State
  | .assertReset, s => assertReset s
  | .load addr data, s => loadPort addr data s
  | .releaseReset, s => releaseReset s
  | .offer code, s => offerCodes [code] s
  | .offerLine codes, s => offerCodes (codes ++ [s.params.newlineCode]) s
  | .noCode, s => settleWait s

/-! ### The image -/

/-- LoadError, the external loader's fault, detected before it drives the port (20_memory.md R64). -/
inductive LoadError where
  | oddLength
  | tooLong
  deriving DecidableEq, Repr

/-- The words of a binary image, each consecutive little-endian byte pair one word (20_memory.md R58);
`none` for an odd length. -/
def imageWords : List (BitVec 8) → Option (List Word)
  | [] => some []
  | [_] => none
  | lo :: hi :: bytes => (imageWords bytes).map (BitVec.ofNat 16 (lo.toNat + 256 * hi.toNat) :: ·)

/-- The memory as bytes in the image's order, byte 2a the low and byte 2a + 1 the high half of cell a, without bytes
that are 0 (20_memory.md R58). A view for comparison with image bytes: no operation of the block reads it. -/
def imageCells (m : Memory) : List Host.Cell :=
  m.flatMap fun (c : Cell) =>
    [(2 * c.1, c.2.setWidth 8), (2 * c.1 + 1, (c.2 >>> 8).setWidth 8)].filter fun b => b.2 != 0

/-- Drives the load port with consecutive words from address `a` up. -/
def loadWords : Nat → List Word → State → State
  | _, [], s => s
  | a, w :: ws, s => loadWords (a + 1) ws (loadPort (BitVec.ofNat 15 a) w s)

/-- The loader's contract with the Word Store: image word k through the load port to address `LOAD_BASE + k`
(20_memory.md R64, 70_reset_and_hazards.md R221). -/
def loadImage (bytes : List (BitVec 8)) (s : State) : Except LoadError State :=
  match imageWords bytes with
  | none => .error .oddLength
  | some ws =>
    if Config.memWords - Config.loadBase < ws.length then .error .tooLong
    else .ok (loadWords Config.loadBase ws s)

/-- Reset, load, release: how a program comes to run (70_reset_and_hazards.md R220 to R222). -/
def boot (bytes : List (BitVec 8)) (s : State) : Except LoadError State :=
  match loadImage bytes (assertReset s) with
  | .ok s' => .ok (releaseReset s')
  | .error e => .error e

end Sys2Proof.Machine
end

