-- ==== Sys2Proof/Safety.lean ====
section
/-! DEFINITION. The terms claims are made in: the unified address space as one read, what a step leaves alone, code at
the pc, the machine's invariant and the states a run with its host can reach. -/

namespace Sys2Proof.Machine

/-! ### The unified address space -/

/-- The word at address `a` of the unified space [0, 32775], 0 above it (20_memory.md R50). -/
def State.peek (s : State) (a : Nat) : Word :=
  if a < 32768 then s.mem.read a
  else if h : a - 32768 < 8 then (s.regs[a - 32768]).setWidth 16
  else 0

/-- `t` is `s` with the number `n` at address `a`: every other address reads as before, and nothing but memory and
registers has changed. -/
structure StoredAt (s : State) (a n : Nat) (t : State) : Prop where
  value : (t.peek a).toNat = n
  others : ∀ b, b ≠ a → t.peek b = s.peek b
  rest : t = { s with mem := t.mem, regs := t.regs }

/-! ### Code at the pc -/

/-- The block is running and its next words to fetch are `ws`, all in ordinary memory. -/
structure CodeAt (s : State) (ws : List Word) : Prop where
  running : s.runState = .running
  inMemory : s.pc.toNat + ws.length ≤ 32768
  words : ∀ k (h : k < ws.length), s.mem.read (s.pc.toNat + k) = ws[k]

/-- The state in which an instruction of `n` words at the pc executes: IA is its address A and the pc is A + n
(40_dispatch.md R91). -/
def afterFetch (s : State) (n : Nat) : State := { s with ia := s.pc, pc := s.pc + BitVec.ofNat 16 n }

/-- The instruction `i` is encoded as `ws`, and wherever those words stand at the pc a step is `exec i` with IA = A
and pc = A + L, IN_WAIT then set as the state it leads to has it (`settle`, 10_state.md R31, 95_test_vectors.md P5). -/
def RunsAs (i : Instr) (ws : List Word) : Prop :=
  encode i = ws ∧ ∀ s, CodeAt s ws → step s = settle (exec i (afterFetch s ws.length))

/-- A pc above 32767 is no place to fetch from: the next step raises AddressRangeError(pc), IA names that pc, and
everything else is left; a block that is not running does not wait (40_dispatch.md R92, 60_exceptions.md R191). -/
def FetchFaults (t : State) : Prop :=
  t.runState = .running → 32767 < t.pc.toNat →
    step t = .next { t with
      ia := t.pc, runState := .faulted, faultCode := .addressRange, faultInfo := t.pc, inWait := false }

/-! ### Instructions that end in a store -/

/-- `i` stores the data word `r s` at its destination `a`, or raises AddressRangeError(a) and writes nothing. -/
def StoresWord (i : Instr) (a : Dest) (r : State → Nat) : Prop :=
  ∀ s, (32775 < a.addr.toNat → exec i s = .next (raise .addressRange a.addr s)) ∧
    (a.addr.toNat ≤ 32775 → ∃ t, exec i s = .next t ∧ StoredAt s a.addr.toNat (r s) t)

/-- From `s`, the outcome `o` is that of `StoreSet(a, n)`: AddressRangeError first, then ValueRangeError, then the
store (20_memory.md R55). -/
def StoresChecked (s : State) (o : Host.Outcome State Fault Refusal) (a : Word) (n : Nat) : Prop :=
  (32775 < a.toNat → o = .next (raise .addressRange a s)) ∧
    (a.toNat ≤ 32775 → 32767 < n → o = .next (raise .valueRange (BitVec.ofNat 16 n) s)) ∧
    (a.toNat ≤ 32775 → n ≤ 32767 → ∃ t, o = .next t ∧ StoredAt s a.toNat n t)

/-! ### What an instruction may touch -/

/-- The destination operand of an instruction that has one (10_state.md R22's list). -/
def destOf : Instr → Option Dest
  | .set a _ => some a
  | .pop a => some a
  | .eq a _ _ => some a
  | .gt a _ _ => some a
  | .add a _ _ => some a
  | .mult a _ _ => some a
  | .mod a _ _ => some a
  | .and a _ _ => some a
  | .or a _ _ => some a
  | .not a _ => some a
  | .rmem a _ => some a
  | .input a => some a
  | .halt => none
  | .push _ => none
  | .jmp _ => none
  | .jt _ _ => none
  | .jf _ _ => none
  | .wmem _ _ => none
  | .call _ => none
  | .ret => none
  | .out _ => none
  | .noop => none

/-- The address and the number an instruction is to store, where it comes to a store at all: not a `mod` by 0, an
`rmem` of an illegal address, a `pop` of an empty stack or an `in` with no code (41_data_movement.md, 42_alu.md,
44_io.md). -/
def storeOf (i : Instr) (s : State) : Option (Word × Nat) :=
  match i with
  | .set a b => some (a.addr, (valueOf b s).toNat)
  | .pop a => s.stack.getLast?.map fun v => (a.addr, v.toNat)
  | .eq a b c => some (a.addr, if (valueOf b s).toNat = (valueOf c s).toNat then 1 else 0)
  | .gt a b c => some (a.addr, if (valueOf b s).toNat > (valueOf c s).toNat then 1 else 0)
  | .add a b c => some (a.addr, ((valueOf b s).toNat + (valueOf c s).toNat) % 32768)
  | .mult a b c => some (a.addr, ((valueOf b s).toNat * (valueOf c s).toNat) % 32768)
  | .mod a b c =>
    if (valueOf c s).toNat = 0 then none else some (a.addr, (valueOf b s).toNat % (valueOf c s).toNat)
  | .and a b c => some (a.addr, (valueOf b s).toNat &&& (valueOf c s).toNat)
  | .or a b c => some (a.addr, (valueOf b s).toNat ||| (valueOf c s).toNat)
  | .not a b => some (a.addr, (valueOf b s).toNat ^^^ 32767)
  | .rmem a b =>
    if 32775 < (valueOf b s).toNat then none else some (a.addr, (s.peek (valueOf b s).toNat).toNat)
  | .wmem a b => some (valueOf a s, (valueOf b s).toNat)
  | .input a => s.input.head?.map fun k => (a.addr, k.toNat)
  | .halt => none
  | .push _ => none
  | .jmp _ => none
  | .jt _ _ => none
  | .jf _ _ => none
  | .call _ => none
  | .ret => none
  | .out _ => none
  | .noop => none

/-! ### The invariant -/

/-- What holds of the state at every moment of a run. -/
structure State.Inv (s : State) : Prop where
  /-- Memory is in its canonical form. -/
  memory : s.mem.wf
  /-- FAULT_CODE is nonzero exactly when RUNSTATE = FAULTED (10_state.md R28). -/
  status : s.faultCode ≠ .none ↔ s.runState = .faulted
  /-- FAULT_INFO is written with FAULT_CODE only (10_state.md R29). -/
  info : s.faultCode = .none → s.faultInfo = 0
  /-- The block never writes LoadError (10_state.md R28). -/
  noLoadError : s.faultCode ≠ .loadError
  /-- StackOverflowError needs a finite depth (60_exceptions.md R202). -/
  overflow : s.faultCode = .stackOverflow → s.params.stackDepth ≠ none
  /-- The stack never exceeds a finite depth (10_state.md R25). -/
  depth : ∀ d, s.params.stackDepth = some d → s.stack.length ≤ d
  /-- The pc is 32768 at most, by increment, or an out-of-range target: it never names a register but R0's address,
  where no fetch succeeds (10_state.md R24). -/
  pcRange : s.pc.toNat ≤ 32768 ∨ 32776 ≤ s.pc.toNat
  /-- IN_WAIT = 1 only while the block waits at an `in` with no code received (10_state.md R31, assumption 5). -/
  waiting : s.inWait = true → waitsAtIn s

/-- The states that steps and host events reach from reset, for any parameters. -/
inductive Reachable : State → Prop where
  | reset (p : Params) : Reachable { State.reset with params := p }
  | step {s t : State} : Reachable s → step s = .next t → Reachable t
  | host {s : State} (e : HostEvent) : Reachable s → Reachable (hostEvent e s)

/-- The run has ended: no step is enabled until a reset (10_state.md R27). -/
abbrev State.terminal (s : State) : Prop := s.runState = .halted ∨ s.runState = .faulted

/-- A safe run's state: it has not faulted. A halt is a success (60_exceptions.md R190). -/
abbrev State.safe (s : State) : Prop := s.runState ≠ .faulted

end Sys2Proof.Machine
end

