-- ==== Sys2Proof/Certificates/Slice0/Obligations.lean ====
section
/-! DEFINITION. The statements for the provers. `exec i s` is the instruction's effect in the state its fetch leaves, in
which IA is its address A and the pc is A + L; `RunsAs` says so of a step. After a step IN_WAIT is 1 exactly where the
block is at an `in` with no code received (`settleWait`, 10_state.md R31); `waitTick` is the model's own (assumption 4). -/

open Sys2Proof Sys2Proof.Machine

/-! ### Reset, image load and ports -/

/-- 70_reset_and_hazards.md R222: "The initial state of a run is therefore: memory = image at addresses [0, n-1] and 0
elsewhere, registers 0, pc 0, stack empty, no fault recorded, not waiting." -/
def Obligations.BootGivesInitialState : Prop :=
  ∀ (bytes : List (BitVec 8)) (ws : List Word) (s t : State), s.runState ≠ .reset →
    imageWords bytes = some ws → boot bytes s = .ok t →
    t.runState = .running ∧
    (∀ k (h : k < ws.length), t.peek k = ws[k]) ∧ (∀ a, ws.length ≤ a → t.peek a = 0) ∧
    t.pc = 0 ∧ t.stack = [] ∧ t.faultCode = .none ∧ t.faultInfo = 0 ∧ t.inWait = false

/-- 20_memory.md, the host load port: "An odd-length image ... or an image longer than `32768 - LOAD_BASE` words is a
LoadError of the external loader" (the spec's own decision D12). -/
def Obligations.ImageLoadsOrIsRefused : Prop :=
  ∀ (bytes : List (BitVec 8)) (s : State),
    (bytes.length % 2 = 1 → boot bytes s = .error .oddLength) ∧
    (bytes.length % 2 = 0 → 65536 < bytes.length → boot bytes s = .error .tooLong) ∧
    (bytes.length % 2 = 0 → bytes.length ≤ 65536 → ∃ t, boot bytes s = .ok t)

/-- 10_state.md section 8 and 70_reset_and_hazards.md section 1: the reset value of every element (the spec's own
decisions D9, D10, D13, D15, D25). Model's choices: the parameters and the channel's codes stay (assumptions 2 and
9), a step in reset stops as `heldInReset` (assumption 3), and `State.reset` is the released, running state
(assumption 11). -/
def Obligations.ResetClearsTheBlock : Prop :=
  (∀ s : State, s.runState ≠ .reset →
    let r := hostEvent .assertReset s
    r.runState = .reset ∧ (∀ a, r.peek a = 0) ∧ r.pc = 0 ∧ r.stack = [] ∧ r.faultCode = .none ∧
    r.faultInfo = 0 ∧ r.ia = 0 ∧ r.inWait = false ∧ (outPorts r).inReady = false ∧
    r.params = s.params ∧ r.input = s.input ∧ step r = .fault .heldInReset ∧
    hostEvent .releaseReset r = { r with runState := .running }) ∧
  (State.reset.runState = .running ∧ (∀ a, State.reset.peek a = 0) ∧ State.reset.pc = 0 ∧
    State.reset.stack = [] ∧ State.reset.faultCode = .none ∧ State.reset.faultInfo = 0 ∧
    State.reset.ia = 0 ∧ State.reset.inWait = false)

/-- 20_memory.md section 4: "`M[load_addr] <- load_data` (15-bit address, so only ordinary memory; 16-bit raw data, not
range-checked ...). The load port is ignored while `rst = 0`" (the spec's own decision D12). -/
def Obligations.LoadPortWritesRawOnlyInReset : Prop :=
  ∀ (a : Value) (v : Word) (s : State),
    (s.runState = .reset → StoredAt s a.toNat v.toNat (hostEvent (.load a v) s)) ∧
    (s.runState ≠ .reset → hostEvent (.load a v) s = s)

/-- 10_state.md sections 3, 6 and 7: the encodings of the status ports (the spec's own decisions D9, D10, D25). That
`in_ready` equals IN_WAIT is the model's reading of `Receive` in 44_io.md section 2 (assumption 5). -/
def Obligations.PortsShowStatus : Prop :=
  (runStateBits .reset = 0 ∧ runStateBits .running = 1 ∧ runStateBits .halted = 2 ∧ runStateBits .faulted = 3) ∧
  (faultCodeBits .none = 0 ∧ faultCodeBits .addressRange = 1 ∧ faultCodeBits .valueRange = 2 ∧
    faultCodeBits .invalidOpcode = 3 ∧ faultCodeBits .stackUnderflow = 4 ∧ faultCodeBits .divideByZero = 5 ∧
    faultCodeBits .stackOverflow = 6 ∧ faultCodeBits .loadError = 7) ∧
  ∀ s : State, (outPorts s).runState = runStateBits s.runState ∧ (outPorts s).faultCode = faultCodeBits s.faultCode ∧
    (outPorts s).faultInfo = s.faultInfo ∧ (outPorts s).iaOut = s.ia ∧ (outPorts s).inWait = s.inWait ∧
    (outPorts s).inReady = s.inWait ∧ (s.inWait = false → (outPorts s).pcOut = s.pc)

/-- 10_state.md section 6: "HALTED and FAULTED are terminal: only reset leaves them." (the spec's own decision D25). -/
def Obligations.TerminalStatesLeftOnlyByReset : Prop :=
  ∀ s : State, s.terminal →
    (∀ t, step s ≠ .next t) ∧
    (∀ e : HostEvent, e ≠ .assertReset → (hostEvent e s).runState = s.runState) ∧
    (hostEvent .assertReset s).runState = .reset

/-! ### Encoding -/

/-- 30_encoding.md sections 1 and 2 (the format, the operand classes, the opcode map): no bit of an encoding is dropped. -/
def Obligations.DecodeReadsBackEncode : Prop :=
  ∀ (i : Instr) (rest : List Word), i.wf = true → decode (encode i ++ rest) = .ok (i, rest)

/-- 30_encoding.md sections 1 and 2: each word has one meaning. -/
def Obligations.EncodeReadsBackDecode : Prop :=
  ∀ (ws rest : List Word) (i : Instr), decode ws = .ok (i, rest) → i.wf = true ∧ encode i ++ rest = ws

/-- 30_encoding.md section 2 (the opcode map) and the word lists of 95_test_vectors.md section 2. -/
def Obligations.SampleWordsDecode : Prop :=
  decode [1, 32768, 5] = .ok (.set (.reg 0) (.lit 5), []) ∧
  decode [9, 32769, 32768, 32767] = .ok (.add (.reg 1) (.reg 0) (.lit 32767), []) ∧
  decode [16, 32769, 7] = .ok (.wmem (.reg 1) (.lit 7), []) ∧
  decode [7, 32768, 3] = .ok (.jt (.reg 0) (.lit 3), []) ∧
  decode [3, 40000] = .ok (.pop (.illegal 40000), []) ∧
  decode [2, 40000] = .ok (.push (.high 40000), []) ∧
  decode [20, 300] = .ok (.input (.cell 300), []) ∧
  decode [18] = .ok (.ret, []) ∧
  decode [22] = .error (.invalidOpcode 22) ∧
  decode [32768] = .error (.invalidOpcode 32768) ∧
  decode [65535] = .error (.invalidOpcode 65535)

/-- 30_encoding.md R74: "A destination in [0, 32767] names a memory cell, one in [32768, 32775] names a register, one in
[32776, 65535] is an illegal address that faults with AddressRangeError when written". -/
def Obligations.DestinationIsRawAddress : Prop :=
  (∀ w : Word, (Dest.ofWord w).addr = w ∧
    (w.toNat ≤ 32767 → ∃ a : Value, Dest.ofWord w = .cell a ∧ a.toNat = w.toNat) ∧
    (32768 ≤ w.toNat → w.toNat ≤ 32775 → ∃ r : Reg, Dest.ofWord w = .reg r ∧ 32768 + r.val = w.toNat) ∧
    (32775 < w.toNat → Dest.ofWord w = .illegal w ∧
      ∀ v s, storeSet (Dest.ofWord w).addr v s = .stop (raise .addressRange w s))) ∧
  ∀ i d, destOf i = some d → (encode i)[1]? = some d.addr

/-- 20_memory.md section 1, the dereference: "if value is itself a register alias, return that register's stored value,
else return value unchanged"; the range of the result is the spec's own inference ("[derived: from the Deref
pseudocode ...]"). -/
def Obligations.ValueOperandIsDereferenced : Prop :=
  ∀ (w : Word) (s : State),
    (w.toNat < 32768 → valueOf (Operand.ofWord w) s = w) ∧
    (∀ r : Reg, w.toNat = 32768 + r.val → (valueOf (Operand.ofWord w) s).toNat = (s.regs[r]).toNat) ∧
    (32775 < w.toNat → valueOf (Operand.ofWord w) s = w) ∧
    ((valueOf (Operand.ofWord w) s).toNat < 32768 ∨ 32775 < (valueOf (Operand.ofWord w) s).toNat) ∧
    deref w s = valueOf (Operand.ofWord w) s

/-- 30_encoding.md section 2: "The length of an instruction is a function of its opcode word alone" (the spec's own
inference). -/
def Obligations.LengthFollowsFromOpcode : Prop :=
  ∀ i : Instr, 1 ≤ (encode i).length ∧ (encode i).length ≤ 4 ∧
    (∃ op, (encode i).head? = some op ∧ op.toNat ≤ 21) ∧
    ∀ j : Instr, (encode j).head? = (encode i).head? → (encode j).length = (encode i).length

/-! ### The step -/

/-- 40_dispatch.md section 1, the Dispatcher step: latch IA, fetch the words, execute; the pc is then A + L. `settle`
gives IN_WAIT its value (10_state.md section 7). -/
def Obligations.StepRunsDecodedInstruction : Prop :=
  ∀ (i : Instr) (s : State), i.wf = true → CodeAt s (encode i) →
    step s = settle (exec i (afterFetch s (encode i).length))

/-- 40_dispatch.md R98: "If the opcode word `op` fetched at address A is greater than 21, the step raises
`InvalidOpcodeError(op)` immediately after the opcode fetch". -/
def Obligations.InvalidOpcodeRaises : Prop :=
  ∀ s : State, s.runState = .running → s.pc.toNat ≤ 32767 → 21 < (s.mem.read s.pc.toNat).toNat →
    step s = .next { s with
      ia := s.pc, pc := s.pc + 1, runState := .faulted, faultCode := .invalidOpcode,
      faultInfo := s.mem.read s.pc.toNat, inWait := false }

/-- 40_dispatch.md section 2, `FetchWord`: "if pc > 32767 then raise AddressRangeError(pc)" (the spec's own decision
D3). -/
def Obligations.FetchPastMemoryFaults : Prop :=
  ∀ s : State, FetchFaults s ∧
    ∀ n, s.runState = .running → s.pc.toNat ≤ 32767 → arity (s.mem.read s.pc.toNat) = some n →
      32767 < s.pc.toNat + n →
      step s = .next { s with
        ia := s.pc, pc := 32768, runState := .faulted, faultCode := .addressRange, faultInfo := 32768,
        inWait := false }

/-- 40_dispatch.md section 1: "A step is enabled only when `RUNSTATE = RUNNING`". How a step that is not enabled is
named is the model's choice (assumption 3). -/
def Obligations.NoStepUnlessRunning : Prop :=
  ∀ s : State,
    (s.runState = .reset → step s = .fault .heldInReset) ∧
    (s.runState = .halted → step s = .fault .runHalted) ∧
    (s.runState = .faulted → step s = .fault .runFaulted)

/-- 40_dispatch.md section 1: "A step is enabled only when `RUNSTATE = RUNNING`, and a step of `in` only when an input
code is available" (the spec's own decisions D15, D16). The name of the stop is the model's choice (assumption 5). -/
def Obligations.RunningBlockStepsUnlessWaiting : Prop :=
  (∀ (i : Instr) (s : State), ((∃ a, i = .input a) → s.input ≠ []) → ∃ t, exec i s = .next t) ∧
  ∀ s : State, s.runState = .running →
    (waitsAtIn s → step s = .fault .waitingForInput) ∧ (¬ waitsAtIn s → ∃ t, step s = .next t)

/-- 43_control_transfer.md section 1: "When a branch is not taken, or after any non-branch instruction, the next
instruction is at `A + L`". -/
def Obligations.NonBranchGoesOn : Prop :=
  ∀ s t : State, step s = .next t → t.runState = .running →
    (s.mem.read s.pc.toNat).toNat ∉ [6, 7, 8, 17, 18] →
    ∃ n, arity (s.mem.read s.pc.toNat) = some n ∧ t.pc = s.pc + BitVec.ofNat 16 (n + 1)

/-! ### `halt`, `noop` and control transfer -/

/-- 40_dispatch.md R96: "State written: `RUNSTATE` only; `pc` is left at A + 1 by the fetch." -/
def Obligations.HaltEndsRun : Prop :=
  RunsAs .halt [0] ∧ ∀ s : State, exec .halt s = .next { s with runState := .halted }

/-- 40_dispatch.md R97: "State written: none besides the pc advance of the fetch." -/
def Obligations.NoopOnlyAdvances : Prop :=
  RunsAs .noop [21] ∧ (∀ s : State, exec .noop s = .next s) ∧
  ∀ s : State, CodeAt s [21] → step s = .next (settleWait { s with ia := s.pc, pc := s.pc + 1 })

/-- 43_control_transfer.md R151: "`jmp a` (opcode 6). "PC = a"." -/
def Obligations.JmpSetsPc : Prop :=
  ∀ a : Operand, ((Instr.jmp a).wf = true → RunsAs (.jmp a) [6, a.word]) ∧
    ∀ s : State, exec (.jmp a) s = .next { s with pc := valueOf a s } ∧ FetchFaults { s with pc := valueOf a s }

/-- 43_control_transfer.md R152: "`jt(0, L)` never changes the program counter; `jt(nonzero, L)` sets it to exactly L". -/
def Obligations.JtBranchesOnNonzero : Prop :=
  ∀ a b : Operand, ((Instr.jt a b).wf = true → RunsAs (.jt a b) [7, a.word, b.word]) ∧
    ∀ s : State,
      ((valueOf a s).toNat ≠ 0 →
        exec (.jt a b) s = .next { s with pc := valueOf b s } ∧ FetchFaults { s with pc := valueOf b s }) ∧
      ((valueOf a s).toNat = 0 → exec (.jt a b) s = .next s)

/-- 43_control_transfer.md R153: "`jf(nonzero, L)` never changes the pc, and `jf(0, L)` sets it to exactly L." -/
def Obligations.JfBranchesOnZero : Prop :=
  ∀ a b : Operand, ((Instr.jf a b).wf = true → RunsAs (.jf a b) [8, a.word, b.word]) ∧
    ∀ s : State,
      ((valueOf a s).toNat = 0 →
        exec (.jf a b) s = .next { s with pc := valueOf b s } ∧ FetchFaults { s with pc := valueOf b s }) ∧
      ((valueOf a s).toNat ≠ 0 → exec (.jf a b) s = .next s)

/-- 43_control_transfer.md section 3, `call`: push the pc, then redirect it; a faulting push leaves stack and pc (the
spec's own decision D24). -/
def Obligations.CallPushesReturnAddress : Prop :=
  ∀ a : Operand, ((Instr.call a).wf = true → RunsAs (.call a) [17, a.word]) ∧
    ∀ s : State,
      (32767 < s.pc.toNat → exec (.call a) s = .next (raise .valueRange s.pc s)) ∧
      (s.pc.toNat ≤ 32767 → s.params.stackDepth = some s.stack.length →
        exec (.call a) s = .next (raise .stackOverflow s.pc s)) ∧
      (s.pc.toNat ≤ 32767 → s.params.stackDepth ≠ some s.stack.length →
        exec (.call a) s = .next { s with stack := s.stack ++ [s.pc.setWidth 15], pc := valueOf a s })

/-- 43_control_transfer.md section 3, `ret`, under both values of `RET_EMPTY_POLICY` (the spec's own decision D8). -/
def Obligations.RetPopsReturnAddress : Prop :=
  RunsAs .ret [18] ∧
    ∀ s : State,
      (∀ st v, s.stack = st ++ [v] → exec .ret s = .next { s with stack := st, pc := v.setWidth 16 }) ∧
      (s.stack = [] → s.params.retEmptyPolicy = .halt → exec .ret s = .next { s with runState := .halted }) ∧
      (s.stack = [] → s.params.retEmptyPolicy = .fault → exec .ret s = .next (raise .stackUnderflow 0 s))

/-- 43_control_transfer.md section 3: "`call(L)` followed eventually by `ret` restores the program counter to the
instruction immediately after `call`'s operand", provided pushes and pops in between are balanced. -/
def Obligations.RetUndoesCall : Prop :=
  ∀ (a : Operand) (s t u : State), exec (.call a) s = .next t → s.pc.toNat ≤ 32767 →
    s.params.stackDepth ≠ some s.stack.length → u.stack = t.stack →
    exec .ret u = .next { u with pc := s.pc, stack := s.stack }

/-! ### Data movement -/

/-- 41_data_movement.md R110: "`set *a b` (opcode 1). "store b into a"." -/
def Obligations.SetStoresValue : Prop :=
  ∀ (a : Dest) (b : Operand), ((Instr.set a b).wf = true → RunsAs (.set a b) [1, a.addr, b.word]) ∧
    ∀ s : State, StoresChecked s (exec (.set a b) s) a.addr (valueOf b s).toNat

/-- 41_data_movement.md R111: "`push a` (opcode 2). "push a"." -/
def Obligations.PushAppends : Prop :=
  ∀ a : Operand, ((Instr.push a).wf = true → RunsAs (.push a) [2, a.word]) ∧
    ∀ s : State,
      (32767 < (valueOf a s).toNat → exec (.push a) s = .next (raise .valueRange (valueOf a s) s)) ∧
      ((valueOf a s).toNat ≤ 32767 → s.params.stackDepth = some s.stack.length →
        exec (.push a) s = .next (raise .stackOverflow (valueOf a s) s)) ∧
      ((valueOf a s).toNat ≤ 32767 → s.params.stackDepth ≠ some s.stack.length →
        exec (.push a) s = .next { s with stack := s.stack ++ [(valueOf a s).setWidth 15] })

/-- 41_data_movement.md, `pop`: the pop comes first, and its effect stays when the store faults (the spec's own decision
D23). -/
def Obligations.PopStoresTop : Prop :=
  ∀ a : Dest, ((Instr.pop a).wf = true → RunsAs (.pop a) [3, a.addr]) ∧
    ∀ s : State,
      (s.stack = [] → exec (.pop a) s = .next (raise .stackUnderflow 0 s)) ∧
      ∀ st v, s.stack = st ++ [v] →
        StoresChecked { s with stack := st } (exec (.pop a) s) a.addr v.toNat

/-- 41_data_movement.md, `rmem`: "a = memory[b]"; the address check on the read is the spec's own decision D4. -/
def Obligations.RmemReadsMemory : Prop :=
  ∀ (a : Dest) (b : Operand), ((Instr.rmem a b).wf = true → RunsAs (.rmem a b) [15, a.addr, b.word]) ∧
    ∀ s : State,
      (32775 < (valueOf b s).toNat → exec (.rmem a b) s = .next (raise .addressRange (valueOf b s) s)) ∧
      ((valueOf b s).toNat ≤ 32775 →
        StoresChecked s (exec (.rmem a b) s) a.addr (s.peek (valueOf b s).toNat).toNat) ∧
      (b.wf = true → (valueOf b s).toNat ≤ 32775 → (valueOf b s).toNat ≤ 32767)

/-- 41_data_movement.md R114: "memory[a] = b — **a is dereferenced here**, unlike every destination-style operand
elsewhere". -/
def Obligations.WmemWritesMemory : Prop :=
  ∀ a b : Operand, ((Instr.wmem a b).wf = true → RunsAs (.wmem a b) [16, a.word, b.word]) ∧
    ∀ s : State, StoresChecked s (exec (.wmem a b) s) (valueOf a s) (valueOf b s).toNat ∧
      (a.wf = true → ∀ t, exec (.wmem a b) s = .next t → t.regs = s.regs)

/-! ### ALU -/

/-- 42_alu.md R131: "`eq *a b c` (opcode 4). "a = 1 if b==c else 0"." -/
def Obligations.EqStoresComparison : Prop :=
  ∀ (a : Dest) (b c : Operand),
    ((Instr.eq a b c).wf = true → RunsAs (.eq a b c) [4, a.addr, b.word, c.word]) ∧
    StoresWord (.eq a b c) a (fun s => if (valueOf b s).toNat = (valueOf c s).toNat then 1 else 0)

/-- 42_alu.md R132: "`gt *a b c` (opcode 5). "a = 1 if b>c else 0"." -/
def Obligations.GtStoresComparison : Prop :=
  ∀ (a : Dest) (b c : Operand),
    ((Instr.gt a b c).wf = true → RunsAs (.gt a b c) [5, a.addr, b.word, c.word]) ∧
    StoresWord (.gt a b c) a (fun s => if (valueOf b s).toNat > (valueOf c s).toNat then 1 else 0)

/-- 42_alu.md R133: "`add *a b c` (opcode 9). "a = (b+c) mod 32768"." -/
def Obligations.AddStoresSumModulo : Prop :=
  ∀ (a : Dest) (b c : Operand),
    ((Instr.add a b c).wf = true → RunsAs (.add a b c) [9, a.addr, b.word, c.word]) ∧
    StoresWord (.add a b c) a (fun s => ((valueOf b s).toNat + (valueOf c s).toNat) % 32768) ∧
    ∀ s : State, exec (.add a b c) s = exec (.add a c b) s

/-- 42_alu.md R134: "`mult *a b c` (opcode 10). "a = (b*c) mod 32768"." -/
def Obligations.MultStoresProductModulo : Prop :=
  ∀ (a : Dest) (b c : Operand),
    ((Instr.mult a b c).wf = true → RunsAs (.mult a b c) [10, a.addr, b.word, c.word]) ∧
    StoresWord (.mult a b c) a (fun s => ((valueOf b s).toNat * (valueOf c s).toNat) % 32768) ∧
    ∀ s : State, exec (.mult a b c) s = exec (.mult a c b) s

/-- 42_alu.md section 3, `mod`: "a = b mod c"; DivideByZeroError is the spec's own decision D6. -/
def Obligations.ModStoresRemainder : Prop :=
  ∀ (a : Dest) (b c : Operand),
    ((Instr.mod a b c).wf = true → RunsAs (.mod a b c) [11, a.addr, b.word, c.word]) ∧
    ∀ s : State,
      ((valueOf c s).toNat = 0 → exec (.mod a b c) s = .next (raise .divideByZero (valueOf b s) s)) ∧
      ((valueOf c s).toNat ≠ 0 →
        StoresChecked s (exec (.mod a b c) s) a.addr ((valueOf b s).toNat % (valueOf c s).toNat))

/-- 42_alu.md R136: "`and *a b c` (opcode 12). "a = b AND c"." -/
def Obligations.AndStoresBitwise : Prop :=
  ∀ (a : Dest) (b c : Operand),
    ((Instr.and a b c).wf = true → RunsAs (.and a b c) [12, a.addr, b.word, c.word]) ∧
    ∀ s : State,
      StoresChecked s (exec (.and a b c) s) a.addr ((valueOf b s).toNat &&& (valueOf c s).toNat) ∧
      (32767 < ((valueOf b s).toNat &&& (valueOf c s).toNat) ↔
        (32767 < (valueOf b s).toNat ∧ 32767 < (valueOf c s).toNat))

/-- 42_alu.md R137: "`or *a b c` (opcode 13). "a = b OR c"." -/
def Obligations.OrStoresBitwise : Prop :=
  ∀ (a : Dest) (b c : Operand),
    ((Instr.or a b c).wf = true → RunsAs (.or a b c) [13, a.addr, b.word, c.word]) ∧
    ∀ s : State,
      StoresChecked s (exec (.or a b c) s) a.addr ((valueOf b s).toNat ||| (valueOf c s).toNat) ∧
      (32767 < ((valueOf b s).toNat ||| (valueOf c s).toNat) ↔
        (32767 < (valueOf b s).toNat ∨ 32767 < (valueOf c s).toNat))

/-- 42_alu.md section 4, `not`: "r <- b XOR 0x7FFF -- for b <= 32767 this is 32767 - b"; the formula decides the
out-of-range case by the spec's own decision D26. -/
def Obligations.NotStoresComplement : Prop :=
  ∀ (a : Dest) (b : Operand), ((Instr.not a b).wf = true → RunsAs (.not a b) [14, a.addr, b.word]) ∧
    ∀ s : State,
      StoresChecked s (exec (.not a b) s) a.addr ((valueOf b s).toNat ^^^ 32767) ∧
      ((valueOf b s).toNat ≤ 32767 → (valueOf b s).toNat ^^^ 32767 = 32767 - (valueOf b s).toNat) ∧
      (32767 < (valueOf b s).toNat ^^^ 32767 ↔ 32767 < (valueOf b s).toNat)

/-- 42_alu.md section 4, `not`: "`not(not(x)) == x` for all x in [0, 32767]". -/
def Obligations.DoubleNotRestores : Prop :=
  ∀ (r : Reg) (s : State), ∃ t, exec (.not (.reg r) (.reg r)) s = .next t ∧
    exec (.not (.reg r) (.reg r)) t = .next s

/-! ### Input and output -/

/-- 44_io.md section 1, `out`: "emit character with code a", not range-checked by the spec's own decision D14. -/
def Obligations.OutEmitsCode : Prop :=
  ∀ a : Operand, ((Instr.out a).wf = true → RunsAs (.out a) [19, a.word]) ∧
    ∀ s : State, exec (.out a) s = .next { s with output := s.output ++ [valueOf a s] } ∧
      outStrobes s { s with output := s.output ++ [valueOf a s] } = [valueOf a s]

/-- 44_io.md section 1, `in`: "read one character code into a"; the code is consumed before the store is checked by the
spec's own decision D15. -/
def Obligations.InStoresReceivedCode : Prop :=
  ∀ a : Dest, ((Instr.input a).wf = true → RunsAs (.input a) [20, a.addr]) ∧
    ∀ (s : State) (k : Word) (rest : List Word), s.input = k :: rest →
      StoresChecked { s with input := rest, inWait := false } (exec (.input a) s) a.addr k.toNat

/-- 44_io.md section 2: "if the stream has no head at this point, the `in` step is not enabled", and 10_state.md section
7: "While `IN_WAIT = 1` no other instruction executes and no architectural state other than this bit changes" (the
spec's own decisions D15, D16). The name of the stop, the event and `in_ready` are the model's (assumption 5), and
so is the wait count (assumption 4). -/
def Obligations.InIsNotEnabledWithoutInput : Prop :=
  ∀ (w : Word) (s : State), s.input = [] →
    (∀ a : Dest, exec (.input a) s = .fault .waitingForInput) ∧
    (CodeAt s [20, w] →
      let u := hostEvent .noCode s
      step s = .fault .waitingForInput ∧ step u = .fault .waitingForInput ∧
      u = { s with inWait := true, waitTick := s.waitTick + 1 } ∧ (outPorts u).inReady = true ∧
      CodeAt u [20, w])

/-- 10_state.md section 7: "Architecturally, `in` is one atomic step" (the spec's own decision D15). How the wait begins
and ends in the model is assumption 5. -/
def Obligations.WaitingInCompletesOnOffer : Prop :=
  ∀ (w k : Word) (s : State), CodeAt s [20, w] → s.input = [] →
    let u := hostEvent (.offer k) (hostEvent .noCode s)
    u.inWait = false ∧ ∃ t, step u = .next t ∧ t.ia = s.pc ∧ t.pc = s.pc + 2 ∧ t.input = [] ∧
      (w.toNat ≤ 32775 → k.toNat ≤ 32767 →
        t.peek w.toNat = k ∧ (∀ b, b ≠ w.toNat → t.peek b = s.peek b) ∧ t.runState = .running) ∧
      (32775 < w.toNat → (∀ b, t.peek b = s.peek b) ∧ t.faultCode = .addressRange ∧ t.faultInfo = w) ∧
      (w.toNat ≤ 32775 → 32767 < k.toNat →
        (∀ b, t.peek b = s.peek b) ∧ t.faultCode = .valueRange ∧ t.faultInfo = k)

/-- 10_state.md section 7: IN_WAIT is "1 while the block is executing `in` and no input code has been received, 0
otherwise" (the spec's own decision D15). The event of a cycle without a code, and that an offered code ends the
wait, are the model's (assumption 5). -/
def Obligations.WaitFlagShowsTheWait : Prop :=
  (∀ s t : State, step s = .next t → (t.inWait = true ↔ waitsAtIn t)) ∧
  ∀ (s : State) (k : Word), ((hostEvent .noCode s).inWait = true ↔ waitsAtIn s) ∧
    (hostEvent (.offer k) s).inWait = false

/-- 44_io.md section 3: each line is "delivered as its characters' codes in order followed by one newline code". The
value 10 is from general knowledge (assumption 6), and that a wait ends then is assumption 5. -/
def Obligations.LineIsDeliveredWithNewline : Prop :=
  ∀ (cs : List Word) (s : State),
    hostEvent (.offerLine cs) s = 
      { s with input := s.input ++ cs ++ [s.params.newlineCode], inWait := false } ∧
    State.reset.params.newlineCode = 10

/-! ### Whole-machine rules -/

/-- 20_memory.md section 1, `StoreSet` and `StoreGet` (the order of the checks and the check on reads are the spec's own
decisions D5 and D4). -/
def Obligations.StoreSetIsTheValidatedWrite : Prop :=
  ∀ (a v : Word) (s : State),
    (32775 < a.toNat → storeSet a v s = .stop (raise .addressRange a s) ∧
      storeGet a s = .stop (raise .addressRange a s)) ∧
    (a.toNat ≤ 32775 → storeGet a s = .done (s.peek a.toNat) s ∧
      (32767 < v.toNat → storeSet a v s = .stop (raise .valueRange v s)) ∧
      (v.toNat ≤ 32767 → ∃ t, storeSet a v s = .done () t ∧ StoredAt s a.toNat v.toNat t))

/-- 20_memory.md section 3: "Every write is visible to every later fetch" (the spec's own inference), for a `wmem` and
for a destination write to a memory cell alike. -/
def Obligations.StoreIsSeenByNextFetch : Prop :=
  ∀ (i : Instr) (s t u : State) (a : Word) (n : Nat), exec i s = .next t → storeOf i s = some (a, n) →
    a.toNat ≤ 32767 → n ≤ 32767 → u.mem = t.mem → u.pc = a →
    fetchWord u = .done (BitVec.ofNat 16 n) { u with pc := u.pc + 1 }

/-- 10_state.md section 2: registers are written only through a destination operand; for `wmem` this is the spec's own
inference. -/
def Obligations.OnlyDestinationRegisterChanges : Prop :=
  ∀ (i : Instr) (s t : State) (r : Reg), i.wf = true → exec i s = .next t → destOf i ≠ some (.reg r) →
    t.regs[r] = s.regs[r]

/-- 20_memory.md section 1: "Every value an instruction writes is in [0, 32767]" (with the spec's own decision D11 on
image words). -/
def Obligations.StepWritesDataWords : Prop :=
  ∀ (s t : State) (a : Nat), step s = .next t → t.peek a ≠ s.peek a → (t.peek a).toNat ≤ 32767

/-- 10_state.md section 4: the stack is "used only by `push`, `pop`, `call` and `ret`". -/
def Obligations.StackMovesOnlyByItsOpcodes : Prop :=
  ∀ s t : State, step s = .next t →
    t.stack = s.stack ∨
    ((s.mem.read s.pc.toNat).toNat ∈ [2, 17] ∧ ∃ v, t.stack = s.stack ++ [v]) ∨
    ((s.mem.read s.pc.toNat).toNat ∈ [3, 18] ∧ ∃ v, s.stack = t.stack ++ [v])

/-- 44_io.md section 2: output is one event for each `out`; "The block never reads input except in `in`, and never reads
ahead". -/
def Obligations.StreamsMoveOnlyByInAndOut : Prop :=
  ∀ s t : State, step s = .next t →
    (t.output = s.output ∨ ((s.mem.read s.pc.toNat).toNat = 19 ∧ ∃ v, t.output = s.output ++ [v])) ∧
    (t.input = s.input ∨ ((s.mem.read s.pc.toNat).toNat = 20 ∧ ∃ k, s.input = k :: t.input))

/-- 10_state.md section 6: IA is "written with the value of `pc` at the start of every step" (the spec's own decision
D10). The parameters in State are the model's choice (assumption 2). -/
def Obligations.StepLatchesIaKeepsParameters : Prop :=
  ∀ s t : State, step s = .next t → t.ia = s.pc ∧ t.params = s.params

/-- 10_state.md section 6, the transitions of RUNSTATE, and 40_dispatch.md section 5: "there is no other way for a run
to end" (the spec's own decisions D8, D25). -/
def Obligations.RunEndsOnlyByHaltOrFault : Prop :=
  ∀ s t : State, step s = .next t →
    s.runState = .running ∧ t.runState ≠ .reset ∧
    (t.runState = .halted → t.faultCode = s.faultCode ∧
      ((s.mem.read s.pc.toNat).toNat = 0 ∨
        ((s.mem.read s.pc.toNat).toNat = 18 ∧ s.stack = [] ∧ s.params.retEmptyPolicy = .halt))) ∧
    (t.runState = .faulted → t.faultCode ≠ .none ∧ t.faultCode ≠ .loadError)

/-- 60_exceptions.md section 2: "the faulting write itself writes nothing"; the removed top and the consumed code stand
(the spec's own decisions D23, D15). -/
def Obligations.FaultingStepWritesNothing : Prop :=
  ∀ s t : State, step s = .next t → t.runState = .faulted →
    (∀ a, t.peek a = s.peek a) ∧ t.output = s.output ∧ t.ia = s.pc ∧
    (t.stack = s.stack ∨ ((s.mem.read s.pc.toNat).toNat = 3 ∧ ∃ v, s.stack = t.stack ++ [v])) ∧
    (t.input = s.input ∨ ((s.mem.read s.pc.toNat).toNat = 20 ∧ ∃ k, s.input = k :: t.input))

/-! ### The invariant -/

/-- 10_state.md section 8: the values at reset, for every choice of the open parameters. -/
def Obligations.ResetHasInvariant : Prop :=
  ∀ p : Params, State.Inv { State.reset with params := p }

/-- 10_state.md sections 3, 4, 6 and 7: what the spec says of the pc's range, the stack's depth, the fault status and
the wait (with the spec's own decisions D3, D7, D9, D10, D15); the canonical form of memory is the model's
(assumption 1), and so is when IN_WAIT rises and falls (assumption 5). -/
def Obligations.StepKeepsInvariant : Prop :=
  ∀ s t : State, s.Inv → step s = .next t → t.Inv

/-- 70_reset_and_hazards.md section 1 and 20_memory.md section 4: what the host can do to the block (the spec's own
decisions D12, D13, D27). The host's events are the model's (assumption 12), and so are when IN_WAIT rises and
falls, after an offer or a cycle without a code (assumption 5), the canonical form of memory (assumption 1) and what
reset keeps (assumptions 2 and 9). -/
def Obligations.HostEventKeepsInvariant : Prop :=
  ∀ (e : HostEvent) (s : State), s.Inv → (hostEvent e s).Inv

/-- 40_dispatch.md section 1 and 70_reset_and_hazards.md section 1: runs from reset, with the host loading any image and
offering any input (the spec's own decisions D13, D15). The wait and its stop are assumption 5, the host's events
assumption 12. -/
def Obligations.ReachableStatesHaveInvariant : Prop :=
  ∀ s : State, Reachable s → s.Inv ∧ (s.runState = .running →
    (¬ waitsAtIn s → ∃ t, step s = .next t ∧ t.Inv) ∧
    (waitsAtIn s → step s = .fault .waitingForInput ∧ ∀ k, ∃ t, step (hostEvent (.offer k) s) = .next t ∧ t.Inv))
end

