-- ==== Sys2Proof/Laws/State.lean ====
section
/-! SUPPORT. Each field of the state after each named update, so that no later proof unfolds a record update. -/

namespace Sys2Proof.Machine

variable (s : State)

/-! ### writeReg -/

@[simp] theorem writeReg_mem (r : Reg) (v : Value) : (writeReg r v s).mem = s.mem := rfl
@[simp] theorem writeReg_regs (r : Reg) (v : Value) : (writeReg r v s).regs = s.regs.set r v := rfl
@[simp] theorem writeReg_pc (r : Reg) (v : Value) : (writeReg r v s).pc = s.pc := rfl
@[simp] theorem writeReg_stack (r : Reg) (v : Value) : (writeReg r v s).stack = s.stack := rfl
@[simp] theorem writeReg_runState (r : Reg) (v : Value) : (writeReg r v s).runState = s.runState := rfl
@[simp] theorem writeReg_faultCode (r : Reg) (v : Value) : (writeReg r v s).faultCode = s.faultCode := rfl
@[simp] theorem writeReg_faultInfo (r : Reg) (v : Value) : (writeReg r v s).faultInfo = s.faultInfo := rfl
@[simp] theorem writeReg_ia (r : Reg) (v : Value) : (writeReg r v s).ia = s.ia := rfl
@[simp] theorem writeReg_inWait (r : Reg) (v : Value) : (writeReg r v s).inWait = s.inWait := rfl
@[simp] theorem writeReg_input (r : Reg) (v : Value) : (writeReg r v s).input = s.input := rfl
@[simp] theorem writeReg_output (r : Reg) (v : Value) : (writeReg r v s).output = s.output := rfl
@[simp] theorem writeReg_params (r : Reg) (v : Value) : (writeReg r v s).params = s.params := rfl
@[simp] theorem writeReg_waitTick (r : Reg) (v : Value) : (writeReg r v s).waitTick = s.waitTick := rfl

/-! ### writeCell -/

@[simp] theorem writeCell_mem (a : Nat) (v : Word) : (writeCell a v s).mem = s.mem.write a v := rfl
@[simp] theorem writeCell_regs (a : Nat) (v : Word) : (writeCell a v s).regs = s.regs := rfl
@[simp] theorem writeCell_pc (a : Nat) (v : Word) : (writeCell a v s).pc = s.pc := rfl
@[simp] theorem writeCell_stack (a : Nat) (v : Word) : (writeCell a v s).stack = s.stack := rfl
@[simp] theorem writeCell_runState (a : Nat) (v : Word) : (writeCell a v s).runState = s.runState := rfl
@[simp] theorem writeCell_faultCode (a : Nat) (v : Word) : (writeCell a v s).faultCode = s.faultCode := rfl
@[simp] theorem writeCell_faultInfo (a : Nat) (v : Word) : (writeCell a v s).faultInfo = s.faultInfo := rfl
@[simp] theorem writeCell_ia (a : Nat) (v : Word) : (writeCell a v s).ia = s.ia := rfl
@[simp] theorem writeCell_inWait (a : Nat) (v : Word) : (writeCell a v s).inWait = s.inWait := rfl
@[simp] theorem writeCell_input (a : Nat) (v : Word) : (writeCell a v s).input = s.input := rfl
@[simp] theorem writeCell_output (a : Nat) (v : Word) : (writeCell a v s).output = s.output := rfl
@[simp] theorem writeCell_params (a : Nat) (v : Word) : (writeCell a v s).params = s.params := rfl
@[simp] theorem writeCell_waitTick (a : Nat) (v : Word) : (writeCell a v s).waitTick = s.waitTick := rfl

/-! ### jump -/

@[simp] theorem jump_mem (w : Word) : (jump w s).mem = s.mem := rfl
@[simp] theorem jump_regs (w : Word) : (jump w s).regs = s.regs := rfl
@[simp] theorem jump_pc (w : Word) : (jump w s).pc = w := rfl
@[simp] theorem jump_stack (w : Word) : (jump w s).stack = s.stack := rfl
@[simp] theorem jump_runState (w : Word) : (jump w s).runState = s.runState := rfl
@[simp] theorem jump_faultCode (w : Word) : (jump w s).faultCode = s.faultCode := rfl
@[simp] theorem jump_faultInfo (w : Word) : (jump w s).faultInfo = s.faultInfo := rfl
@[simp] theorem jump_ia (w : Word) : (jump w s).ia = s.ia := rfl
@[simp] theorem jump_inWait (w : Word) : (jump w s).inWait = s.inWait := rfl
@[simp] theorem jump_input (w : Word) : (jump w s).input = s.input := rfl
@[simp] theorem jump_output (w : Word) : (jump w s).output = s.output := rfl
@[simp] theorem jump_params (w : Word) : (jump w s).params = s.params := rfl
@[simp] theorem jump_waitTick (w : Word) : (jump w s).waitTick = s.waitTick := rfl

/-! ### latchIa -/

@[simp] theorem latchIa_mem : (latchIa s).mem = s.mem := rfl
@[simp] theorem latchIa_regs : (latchIa s).regs = s.regs := rfl
@[simp] theorem latchIa_pc : (latchIa s).pc = s.pc := rfl
@[simp] theorem latchIa_stack : (latchIa s).stack = s.stack := rfl
@[simp] theorem latchIa_runState : (latchIa s).runState = s.runState := rfl
@[simp] theorem latchIa_faultCode : (latchIa s).faultCode = s.faultCode := rfl
@[simp] theorem latchIa_faultInfo : (latchIa s).faultInfo = s.faultInfo := rfl
@[simp] theorem latchIa_ia : (latchIa s).ia = s.pc := rfl
@[simp] theorem latchIa_inWait : (latchIa s).inWait = s.inWait := rfl
@[simp] theorem latchIa_input : (latchIa s).input = s.input := rfl
@[simp] theorem latchIa_output : (latchIa s).output = s.output := rfl
@[simp] theorem latchIa_params : (latchIa s).params = s.params := rfl
@[simp] theorem latchIa_waitTick : (latchIa s).waitTick = s.waitTick := rfl

/-! ### setStack -/

@[simp] theorem setStack_mem (st : List Value) : (setStack st s).mem = s.mem := rfl
@[simp] theorem setStack_regs (st : List Value) : (setStack st s).regs = s.regs := rfl
@[simp] theorem setStack_pc (st : List Value) : (setStack st s).pc = s.pc := rfl
@[simp] theorem setStack_stack (st : List Value) : (setStack st s).stack = st := rfl
@[simp] theorem setStack_runState (st : List Value) : (setStack st s).runState = s.runState := rfl
@[simp] theorem setStack_faultCode (st : List Value) : (setStack st s).faultCode = s.faultCode := rfl
@[simp] theorem setStack_faultInfo (st : List Value) : (setStack st s).faultInfo = s.faultInfo := rfl
@[simp] theorem setStack_ia (st : List Value) : (setStack st s).ia = s.ia := rfl
@[simp] theorem setStack_inWait (st : List Value) : (setStack st s).inWait = s.inWait := rfl
@[simp] theorem setStack_input (st : List Value) : (setStack st s).input = s.input := rfl
@[simp] theorem setStack_output (st : List Value) : (setStack st s).output = s.output := rfl
@[simp] theorem setStack_params (st : List Value) : (setStack st s).params = s.params := rfl
@[simp] theorem setStack_waitTick (st : List Value) : (setStack st s).waitTick = s.waitTick := rfl

/-! ### raise -/

@[simp] theorem raise_mem (e : FaultCode) (w : Word) : (raise e w s).mem = s.mem := rfl
@[simp] theorem raise_regs (e : FaultCode) (w : Word) : (raise e w s).regs = s.regs := rfl
@[simp] theorem raise_pc (e : FaultCode) (w : Word) : (raise e w s).pc = s.pc := rfl
@[simp] theorem raise_stack (e : FaultCode) (w : Word) : (raise e w s).stack = s.stack := rfl
@[simp] theorem raise_runState (e : FaultCode) (w : Word) : (raise e w s).runState = .faulted := rfl
@[simp] theorem raise_faultCode (e : FaultCode) (w : Word) : (raise e w s).faultCode = e := rfl
@[simp] theorem raise_faultInfo (e : FaultCode) (w : Word) : (raise e w s).faultInfo = w := rfl
@[simp] theorem raise_ia (e : FaultCode) (w : Word) : (raise e w s).ia = s.ia := rfl
@[simp] theorem raise_inWait (e : FaultCode) (w : Word) : (raise e w s).inWait = s.inWait := rfl
@[simp] theorem raise_input (e : FaultCode) (w : Word) : (raise e w s).input = s.input := rfl
@[simp] theorem raise_output (e : FaultCode) (w : Word) : (raise e w s).output = s.output := rfl
@[simp] theorem raise_params (e : FaultCode) (w : Word) : (raise e w s).params = s.params := rfl
@[simp] theorem raise_waitTick (e : FaultCode) (w : Word) : (raise e w s).waitTick = s.waitTick := rfl

/-! ### haltRun -/

@[simp] theorem haltRun_mem : (haltRun s).mem = s.mem := rfl
@[simp] theorem haltRun_regs : (haltRun s).regs = s.regs := rfl
@[simp] theorem haltRun_pc : (haltRun s).pc = s.pc := rfl
@[simp] theorem haltRun_stack : (haltRun s).stack = s.stack := rfl
@[simp] theorem haltRun_runState : (haltRun s).runState = .halted := rfl
@[simp] theorem haltRun_faultCode : (haltRun s).faultCode = s.faultCode := rfl
@[simp] theorem haltRun_faultInfo : (haltRun s).faultInfo = s.faultInfo := rfl
@[simp] theorem haltRun_ia : (haltRun s).ia = s.ia := rfl
@[simp] theorem haltRun_inWait : (haltRun s).inWait = s.inWait := rfl
@[simp] theorem haltRun_input : (haltRun s).input = s.input := rfl
@[simp] theorem haltRun_output : (haltRun s).output = s.output := rfl
@[simp] theorem haltRun_params : (haltRun s).params = s.params := rfl
@[simp] theorem haltRun_waitTick : (haltRun s).waitTick = s.waitTick := rfl

/-! ### emit -/

@[simp] theorem emit_mem (v : Word) : (emit v s).mem = s.mem := rfl
@[simp] theorem emit_regs (v : Word) : (emit v s).regs = s.regs := rfl
@[simp] theorem emit_pc (v : Word) : (emit v s).pc = s.pc := rfl
@[simp] theorem emit_stack (v : Word) : (emit v s).stack = s.stack := rfl
@[simp] theorem emit_runState (v : Word) : (emit v s).runState = s.runState := rfl
@[simp] theorem emit_faultCode (v : Word) : (emit v s).faultCode = s.faultCode := rfl
@[simp] theorem emit_faultInfo (v : Word) : (emit v s).faultInfo = s.faultInfo := rfl
@[simp] theorem emit_ia (v : Word) : (emit v s).ia = s.ia := rfl
@[simp] theorem emit_inWait (v : Word) : (emit v s).inWait = s.inWait := rfl
@[simp] theorem emit_input (v : Word) : (emit v s).input = s.input := rfl
@[simp] theorem emit_output (v : Word) : (emit v s).output = s.output ++ [v] := rfl
@[simp] theorem emit_params (v : Word) : (emit v s).params = s.params := rfl
@[simp] theorem emit_waitTick (v : Word) : (emit v s).waitTick = s.waitTick := rfl

/-! ### consumeInput -/

@[simp] theorem consumeInput_mem (ws : List Word) : (consumeInput ws s).mem = s.mem := rfl
@[simp] theorem consumeInput_regs (ws : List Word) : (consumeInput ws s).regs = s.regs := rfl
@[simp] theorem consumeInput_pc (ws : List Word) : (consumeInput ws s).pc = s.pc := rfl
@[simp] theorem consumeInput_stack (ws : List Word) : (consumeInput ws s).stack = s.stack := rfl
@[simp] theorem consumeInput_runState (ws : List Word) : (consumeInput ws s).runState = s.runState := rfl
@[simp] theorem consumeInput_faultCode (ws : List Word) : (consumeInput ws s).faultCode = s.faultCode := rfl
@[simp] theorem consumeInput_faultInfo (ws : List Word) : (consumeInput ws s).faultInfo = s.faultInfo := rfl
@[simp] theorem consumeInput_ia (ws : List Word) : (consumeInput ws s).ia = s.ia := rfl
@[simp] theorem consumeInput_inWait (ws : List Word) : (consumeInput ws s).inWait = false := rfl
@[simp] theorem consumeInput_input (ws : List Word) : (consumeInput ws s).input = ws := rfl
@[simp] theorem consumeInput_output (ws : List Word) : (consumeInput ws s).output = s.output := rfl
@[simp] theorem consumeInput_params (ws : List Word) : (consumeInput ws s).params = s.params := rfl
@[simp] theorem consumeInput_waitTick (ws : List Word) : (consumeInput ws s).waitTick = s.waitTick := rfl

/-! ### placeAtPc -/

@[simp] theorem placeAtPc_mem (ws : List Word) : (placeAtPc ws s).mem = placeWords s.pc.toNat ws s.mem := rfl
@[simp] theorem placeAtPc_regs (ws : List Word) : (placeAtPc ws s).regs = s.regs := rfl
@[simp] theorem placeAtPc_pc (ws : List Word) : (placeAtPc ws s).pc = s.pc := rfl
@[simp] theorem placeAtPc_stack (ws : List Word) : (placeAtPc ws s).stack = s.stack := rfl
@[simp] theorem placeAtPc_runState (ws : List Word) : (placeAtPc ws s).runState = s.runState := rfl
@[simp] theorem placeAtPc_faultCode (ws : List Word) : (placeAtPc ws s).faultCode = s.faultCode := rfl
@[simp] theorem placeAtPc_faultInfo (ws : List Word) : (placeAtPc ws s).faultInfo = s.faultInfo := rfl
@[simp] theorem placeAtPc_ia (ws : List Word) : (placeAtPc ws s).ia = s.ia := rfl
@[simp] theorem placeAtPc_inWait (ws : List Word) : (placeAtPc ws s).inWait = s.inWait := rfl
@[simp] theorem placeAtPc_input (ws : List Word) : (placeAtPc ws s).input = s.input := rfl
@[simp] theorem placeAtPc_output (ws : List Word) : (placeAtPc ws s).output = s.output := rfl
@[simp] theorem placeAtPc_params (ws : List Word) : (placeAtPc ws s).params = s.params := rfl
@[simp] theorem placeAtPc_waitTick (ws : List Word) : (placeAtPc ws s).waitTick = s.waitTick := rfl

/-! ### afterFetch -/

@[simp] theorem afterFetch_mem (n : Nat) : (afterFetch s n).mem = s.mem := rfl
@[simp] theorem afterFetch_regs (n : Nat) : (afterFetch s n).regs = s.regs := rfl
@[simp] theorem afterFetch_pc (n : Nat) : (afterFetch s n).pc = s.pc + BitVec.ofNat 16 n := rfl
@[simp] theorem afterFetch_stack (n : Nat) : (afterFetch s n).stack = s.stack := rfl
@[simp] theorem afterFetch_runState (n : Nat) : (afterFetch s n).runState = s.runState := rfl
@[simp] theorem afterFetch_faultCode (n : Nat) : (afterFetch s n).faultCode = s.faultCode := rfl
@[simp] theorem afterFetch_faultInfo (n : Nat) : (afterFetch s n).faultInfo = s.faultInfo := rfl
@[simp] theorem afterFetch_ia (n : Nat) : (afterFetch s n).ia = s.pc := rfl
@[simp] theorem afterFetch_inWait (n : Nat) : (afterFetch s n).inWait = s.inWait := rfl
@[simp] theorem afterFetch_input (n : Nat) : (afterFetch s n).input = s.input := rfl
@[simp] theorem afterFetch_output (n : Nat) : (afterFetch s n).output = s.output := rfl
@[simp] theorem afterFetch_params (n : Nat) : (afterFetch s n).params = s.params := rfl
@[simp] theorem afterFetch_waitTick (n : Nat) : (afterFetch s n).waitTick = s.waitTick := rfl

/-! ### settleWait: IN_WAIT and the model's own wait count alone -/

@[simp] theorem settleWait_mem : (settleWait s).mem = s.mem := by unfold settleWait; split <;> rfl
@[simp] theorem settleWait_regs : (settleWait s).regs = s.regs := by unfold settleWait; split <;> rfl
@[simp] theorem settleWait_pc : (settleWait s).pc = s.pc := by unfold settleWait; split <;> rfl
@[simp] theorem settleWait_stack : (settleWait s).stack = s.stack := by unfold settleWait; split <;> rfl
@[simp] theorem settleWait_runState : (settleWait s).runState = s.runState := by unfold settleWait; split <;> rfl
@[simp] theorem settleWait_faultCode : (settleWait s).faultCode = s.faultCode := by unfold settleWait; split <;> rfl
@[simp] theorem settleWait_faultInfo : (settleWait s).faultInfo = s.faultInfo := by unfold settleWait; split <;> rfl
@[simp] theorem settleWait_ia : (settleWait s).ia = s.ia := by unfold settleWait; split <;> rfl
@[simp] theorem settleWait_input : (settleWait s).input = s.input := by unfold settleWait; split <;> rfl
@[simp] theorem settleWait_output : (settleWait s).output = s.output := by unfold settleWait; split <;> rfl
@[simp] theorem settleWait_params : (settleWait s).params = s.params := by unfold settleWait; split <;> rfl

@[simp] theorem settleWait_peek (a : Nat) : (settleWait s).peek a = s.peek a := by simp [State.peek]

theorem waitsAtIn_settleWait : waitsAtIn (settleWait s) ↔ waitsAtIn s := by simp [waitsAtIn]

theorem settleWait_waits {s : State} (h : waitsAtIn s) :
    settleWait s = { s with inWait := true, waitTick := s.waitTick + 1 } := if_pos h

theorem settleWait_else {s : State} (h : ¬ waitsAtIn s) : settleWait s = { s with inWait := false } := if_neg h

/-- After `settleWait` IN_WAIT is 1 exactly where the block waits at an `in`. -/
theorem settleWait_inWait : (settleWait s).inWait = true ↔ waitsAtIn s := by
  by_cases h : waitsAtIn s
  · rw [settleWait_waits h]; exact iff_of_true rfl h
  · rw [settleWait_else h]; exact iff_of_false Bool.false_ne_true h

/-- A block that is not running does not wait. -/
theorem settleWait_not_running {s : State} (h : s.runState ≠ .running) : settleWait s = { s with inWait := false } :=
  settleWait_else fun hw => h hw.1

@[simp] theorem settle_next : settle (.next s) = .next (settleWait s) := rfl

/-- A settled outcome is a next state only of a next state. -/
theorem settle_eq_next {o : Host.Outcome State Fault Refusal} {t : State} (h : settle o = .next t) :
    ∃ u, o = .next u ∧ t = settleWait u := by
  cases o <;> simp only [settle, Host.Outcome.next.injEq, reduceCtorEq] at h
  exact ⟨_, rfl, h.symm⟩

/-! ### offerCodes -/

@[simp] theorem offerCodes_mem (ws : List Word) : (offerCodes ws s).mem = s.mem := by simp [offerCodes]
@[simp] theorem offerCodes_regs (ws : List Word) : (offerCodes ws s).regs = s.regs := by simp [offerCodes]
@[simp] theorem offerCodes_pc (ws : List Word) : (offerCodes ws s).pc = s.pc := by simp [offerCodes]
@[simp] theorem offerCodes_stack (ws : List Word) : (offerCodes ws s).stack = s.stack := by simp [offerCodes]
@[simp] theorem offerCodes_runState (ws : List Word) : (offerCodes ws s).runState = s.runState := by simp [offerCodes]
@[simp] theorem offerCodes_faultCode (ws : List Word) : (offerCodes ws s).faultCode = s.faultCode := by simp [offerCodes]
@[simp] theorem offerCodes_faultInfo (ws : List Word) : (offerCodes ws s).faultInfo = s.faultInfo := by simp [offerCodes]
@[simp] theorem offerCodes_ia (ws : List Word) : (offerCodes ws s).ia = s.ia := by simp [offerCodes]
@[simp] theorem offerCodes_input (ws : List Word) : (offerCodes ws s).input = s.input ++ ws := by simp [offerCodes]
@[simp] theorem offerCodes_output (ws : List Word) : (offerCodes ws s).output = s.output := by simp [offerCodes]
@[simp] theorem offerCodes_params (ws : List Word) : (offerCodes ws s).params = s.params := by simp [offerCodes]

end Sys2Proof.Machine
end

