-- ==== Sys2Proof/Laws/Memory.lean ====
section
/-! SUPPORT. Memory: what a read gives after a write, and that every memory operation keeps the canonical form. -/

namespace Sys2Proof.Machine

/-! ### One read after one write -/

theorem read_nil (a : Nat) : Memory.read [] a = 0 := rfl

theorem read_cons (c : Cell) (m : Memory) (a : Nat) :
    Memory.read (c :: m) a = if c.1 = a then c.2 else Memory.read m a := rfl

theorem erase_cons (c : Cell) (m : Memory) (a : Nat) :
    Memory.erase (c :: m) a = if c.1 = a then Memory.erase m a else c :: Memory.erase m a := by
  by_cases h : c.1 = a <;> simp [Memory.erase, h]

theorem read_erase_same (m : Memory) (a : Nat) : (m.erase a).read a = 0 := by
  induction m with
  | nil => rfl
  | cons c m ih =>
    rw [erase_cons]
    split
    · exact ih
    · rename_i h; rw [read_cons, if_neg h, ih]

theorem read_erase_other (m : Memory) {a b : Nat} (hb : b ≠ a) : (m.erase a).read b = m.read b := by
  induction m with
  | nil => rfl
  | cons c m ih =>
    rw [erase_cons, read_cons]
    split
    · rename_i h; rw [ih, if_neg (by omega)]
    · rw [read_cons, ih]

theorem read_insert_other (m : Memory) {a b : Nat} (v : Word) (hb : b ≠ a) :
    (m.insert a v).read b = m.read b := by
  induction m with
  | nil => simp [Memory.insert, read_cons, Ne.symm hb]
  | cons c m ih =>
    unfold Memory.insert
    split
    · simp [read_cons, Ne.symm hb]
    · rw [read_cons, read_cons, ih]

theorem read_insert_same (m : Memory) (a : Nat) (v : Word) (h : ∀ c ∈ m, c.1 ≠ a) :
    (m.insert a v).read a = v := by
  induction m with
  | nil => simp [Memory.insert, read_cons]
  | cons c m ih =>
    unfold Memory.insert
    split
    · simp [read_cons]
    · rw [read_cons, if_neg (h c (by simp)), ih fun d hd => h d (by simp [hd])]

theorem mem_erase {m : Memory} {a : Nat} {c : Cell} : c ∈ m.erase a ↔ c ∈ m ∧ c.1 ≠ a := by
  simp [Memory.erase]

/-- A read of the written cell gives the word written, in every memory (20_memory.md R62). -/
@[simp] theorem read_write_same (m : Memory) (a : Nat) (v : Word) : (m.write a v).read a = v := by
  unfold Memory.write
  split
  · rename_i h; rw [read_erase_same, h]
  · exact read_insert_same _ _ _ fun c hc => (mem_erase.mp hc).2

/-- A write leaves every other cell alone, in every memory (20_memory.md R62). -/
theorem read_write_other (m : Memory) {a b : Nat} (v : Word) (hb : b ≠ a) :
    (m.write a v).read b = m.read b := by
  unfold Memory.write
  split
  · exact read_erase_other m hb
  · rw [read_insert_other _ _ hb, read_erase_other m hb]

/-- Both laws at once. -/
theorem read_write (m : Memory) (a b : Nat) (v : Word) :
    (m.write a v).read b = if b = a then v else m.read b := by
  split
  · rename_i h; rw [h, read_write_same]
  · exact read_write_other m v ‹_›

/-! ### The canonical form -/

theorem mem_insert {m : Memory} {a : Nat} {v : Word} {c : Cell} (h : c ∈ m.insert a v) :
    c = (a, v) ∨ c ∈ m := by
  induction m with
  | nil => simpa [Memory.insert] using h
  | cons d m ih =>
    unfold Memory.insert at h
    split at h
    · simpa using h
    · rcases List.mem_cons.mp h with rfl | h
      · simp
      · rcases ih h with h | h <;> simp [h]

theorem erase_wf {m : Memory} (h : m.wf) (a : Nat) : (m.erase a).wf :=
  ⟨h.1.filter _, fun c hc => h.2 c (mem_erase.mp hc).1⟩

theorem insert_wf {m : Memory} (h : m.wf) {a : Nat} {v : Word} (ha : a < Config.memWords) (hv : v ≠ 0)
    (hm : ∀ c ∈ m, c.1 ≠ a) : (m.insert a v).wf := by
  refine ⟨?_, fun c hc => ?_⟩
  · induction m with
    | nil => simp [Memory.insert]
    | cons d m ih =>
      have hd := List.pairwise_cons.mp h.1
      unfold Memory.insert
      split
      · rename_i had
        refine List.pairwise_cons.mpr ⟨fun e he => ?_, h.1⟩
        rcases List.mem_cons.mp he with rfl | he
        · exact had
        · exact Nat.lt_trans had (hd.1 e he)
      · rename_i had
        have hda : d.1 ≠ a := hm d (by simp)
        refine List.pairwise_cons.mpr ⟨fun e he => ?_,
          ih ⟨hd.2, fun c hc => h.2 c (by simp [hc])⟩ fun c hc => hm c (by simp [hc])⟩
        rcases mem_insert he with rfl | he
        · simp only; omega
        · exact hd.1 e he
  · rcases mem_insert hc with rfl | hc
    · exact ⟨ha, hv⟩
    · exact h.2 c hc

/-- A write to ordinary memory keeps the canonical form. -/
theorem write_wf {m : Memory} (h : m.wf) {a : Nat} (v : Word) (ha : a < Config.memWords) :
    (m.write a v).wf := by
  unfold Memory.write
  split
  · exact erase_wf h a
  · exact insert_wf (erase_wf h a) ha ‹_› fun c hc => (mem_erase.mp hc).2

/-- Placing words keeps the canonical form. -/
theorem placeWords_wf {m : Memory} (h : m.wf) (a : Nat) (ws : List Word) : (placeWords a ws m).wf := by
  induction ws generalizing a m with
  | nil => exact h
  | cons w ws ih =>
    unfold placeWords
    split
    · exact ih (write_wf h w ‹_›) _
    · exact ih h _

/-- Reset memory is in canonical form. -/
theorem reset_wf : State.reset.mem.wf := by decide

/-- Placed words read back, and cells below them are as before. -/
theorem read_placeWords (ws : List Word) (a b : Nat) (m : Memory) :
    (placeWords a ws m).read b =
      if h : a ≤ b ∧ b < a + ws.length ∧ b < 32768 then ws[b - a]'(by omega) else m.read b := by
  induction ws generalizing a m with
  | nil => simp [placeWords]; intros; omega
  | cons w ws ih =>
    simp only [placeWords, ih, List.length_cons, Config.memWords]
    by_cases hb : b = a
    · subst hb
      have hno : ¬ (b + 1 ≤ b ∧ b < b + 1 + ws.length ∧ b < 32768) := by omega
      simp only [hno, dite_false]
      by_cases hlt : b < 32768
      · have : b ≤ b ∧ b < b + (ws.length + 1) ∧ b < 32768 := by omega
        simp [hlt]
      · have : ¬ (b ≤ b ∧ b < b + (ws.length + 1) ∧ b < 32768) := by omega
        simp [hlt]
    · have hm : Memory.read (if a < 32768 then m.write a w else m) b = m.read b := by
        split
        · exact read_write_other m w hb
        · rfl
      rw [hm]
      by_cases hin : a + 1 ≤ b ∧ b < a + 1 + ws.length ∧ b < 32768
      · have hin' : a ≤ b ∧ b < a + (ws.length + 1) ∧ b < 32768 := by omega
        simp only [hin, hin', and_self, dite_true]
        have : b - a = (b - (a + 1)) + 1 := by omega
        simp [this]
      · have hin' : ¬ (a ≤ b ∧ b < a + (ws.length + 1) ∧ b < 32768) := by omega
        rw [dif_neg hin, dif_neg hin']

end Sys2Proof.Machine
end

