-- ==== Sys2Proof/Laws/Ops.lean ====
section
/-! SUPPORT. What each shared operation can do, said once: operands, the address-space mux, the call stack and input. -/

namespace Sys2Proof.Machine

/-! ### Words -/

theorem toNat_setWidth_16 (v : Value) : (v.setWidth 16).toNat = v.toNat := by
  rw [BitVec.toNat_setWidth]; exact Nat.mod_eq_of_lt (by have := v.isLt; omega)

theorem toNat_setWidth_15 {w : Word} (h : w.toNat ≤ 32767) : (w.setWidth 15).toNat = w.toNat := by
  rw [BitVec.toNat_setWidth]; exact Nat.mod_eq_of_lt (by omega)

theorem setWidth_16_15 {w : Word} (h : w.toNat ≤ 32767) : (w.setWidth 15).setWidth 16 = w := by
  apply BitVec.eq_of_toNat_eq
  rw [toNat_setWidth_16, toNat_setWidth_15 h]

theorem setWidth_15_16 (v : Value) : (v.setWidth 16).setWidth 15 = v := by
  apply BitVec.eq_of_toNat_eq
  rw [toNat_setWidth_15 (by rw [toNat_setWidth_16]; have := v.isLt; omega), toNat_setWidth_16]

theorem word_reg_toNat (r : Reg) : (BitVec.ofNat 16 (32768 + r.val)).toNat = 32768 + r.val := by
  rw [BitVec.toNat_ofNat]; exact Nat.mod_eq_of_lt (by have := r.isLt; omega)

theorem regOfAddr_val {a : Word} (h : a.toNat ≤ 32775) (h' : 32768 ≤ a.toNat) :
    (regOfAddr a).val = a.toNat - 32768 := by
  simp only [regOfAddr, Fin.val_ofNat, Config.regBase]; omega

theorem addr_cell (a : Value) : (Dest.cell a).addr.toNat = a.toNat := toNat_setWidth_16 a

theorem addr_reg (r : Reg) : (Dest.reg r).addr.toNat = 32768 + r.val := word_reg_toNat r

/-- A destination is legal exactly when it names a cell or a register. -/
theorem addr_legal_of_wf {a : Dest} (h : a.wf) : a.addr.toNat ≤ 32775 ↔ ∀ w, a ≠ .illegal w := by
  cases a with
  | cell a => have := a.isLt; simp [addr_cell]; omega
  | reg r => have := r.isLt; simp [addr_reg]; omega
  | illegal w => simpa [Dest.wf, Dest.addr, Config.addrMax] using h

/-! ### The unified address space -/

theorem peek_cell (s : State) {a : Nat} (h : a < 32768) : s.peek a = s.mem.read a := if_pos h

theorem peek_reg (s : State) (r : Reg) : s.peek (32768 + r.val) = (s.regs[r]).setWidth 16 := by
  have := r.isLt
  simp [State.peek]

theorem peek_writeCell (s : State) {a : Nat} (v : Word) (h : a < 32768) (b : Nat) :
    (writeCell a v s).peek b = if b = a then v else s.peek b := by
  by_cases hb : b < 32768
  · rw [peek_cell _ hb, peek_cell _ hb, writeCell_mem, read_write]
  · have : b ≠ a := by omega
    simp [State.peek, hb, this]

theorem peek_writeReg (s : State) (r : Reg) (v : Value) (b : Nat) :
    (writeReg r v s).peek b = if b = 32768 + r.val then v.setWidth 16 else s.peek b := by
  have hr := r.isLt
  unfold State.peek
  by_cases hb : b < 32768
  · have : b ≠ 32768 + r.val := by omega
    simp [hb, this]
  · simp only [hb, if_false, writeReg_regs]
    by_cases h8 : b - 32768 < 8
    · simp only [h8, dite_true, Vector.getElem_set]
      by_cases he : r.val = b - 32768
      · have : b = 32768 + r.val := by omega
        simp [this]
      · have : b ≠ 32768 + r.val := by omega
        simp [this, he]
    · have : b ≠ 32768 + r.val := by omega
      simp [h8, this]

theorem storedAt_writeCell (s : State) {a : Nat} (v : Word) (h : a < 32768) :
    StoredAt s a v.toNat (writeCell a v s) :=
  ⟨by rw [peek_writeCell s v h, if_pos rfl], fun b hb => by rw [peek_writeCell s v h, if_neg hb], rfl⟩

theorem storedAt_writeReg (s : State) (r : Reg) (v : Value) :
    StoredAt s (32768 + r.val) v.toNat (writeReg r v s) :=
  ⟨by rw [peek_writeReg, if_pos rfl, toNat_setWidth_16], fun b hb => by rw [peek_writeReg, if_neg hb], rfl⟩

/-! ### Operands -/

/-- A value operand is a number in [0, 32767] or [32776, 65535] (30_encoding.md R73). -/
theorem valueOf_range {a : Operand} (h : a.wf) (s : State) :
    (valueOf a s).toNat ≤ 32767 ∨ 32776 ≤ (valueOf a s).toNat := by
  cases a with
  | lit n => left; simp only [valueOf, toNat_setWidth_16]; have := n.isLt; omega
  | reg r => left; simp only [valueOf, toNat_setWidth_16]; have := (readReg r s).isLt; omega
  | high w => right; simp only [Operand.wf, decide_eq_true_eq, Config.addrMax] at h; simp only [valueOf]; omega

/-- A value operand depends on the registers alone. -/
theorem valueOf_congr (a : Operand) {s t : State} (h : s.regs = t.regs) : valueOf a s = valueOf a t := by
  cases a <;> simp [valueOf, readReg, h]

/-! ### StoreGet and StoreSet -/

theorem storeGet_illegal {a : Word} (h : 32775 < a.toNat) (s : State) :
    storeGet a s = .stop (raise .addressRange a s) := if_pos h

/-- A legal read gives the word at the address and changes nothing (20_memory.md R54, R60). -/
theorem storeGet_legal {a : Word} (h : a.toNat ≤ 32775) (s : State) :
    storeGet a s = .done (s.peek a.toNat) s := by
  unfold storeGet
  rw [if_neg (by simp only [Config.addrMax]; omega)]
  split
  · rename_i h'
    have e : a.toNat = 32768 + (regOfAddr a).val := by rw [regOfAddr_val h h']; simp only [Config.regBase] at h'; omega
    rw [e, peek_reg]; rfl
  · rename_i h'
    rw [peek_cell]; simp only [Config.regBase] at h'; omega

theorem storeSet_illegal {a : Word} (h : 32775 < a.toNat) (v : Word) (s : State) :
    storeSet a v s = .stop (raise .addressRange a s) := if_pos h

theorem storeSet_value {a v : Word} (h : a.toNat ≤ 32775) (hv : 32767 < v.toNat) (s : State) :
    storeSet a v s = .stop (raise .valueRange v s) := by
  unfold storeSet
  rw [if_neg (by simp only [Config.addrMax]; omega), if_pos hv]

theorem storeSet_cell {a v : Word} (h : a.toNat < 32768) (hv : v.toNat ≤ 32767) (s : State) :
    storeSet a v s = .done () (writeCell a.toNat v s) := by
  unfold storeSet
  rw [if_neg (by simp only [Config.addrMax]; omega), if_neg (by simp only [Config.wordMax]; omega),
    if_neg (by simp only [Config.regBase]; omega)]

theorem storeSet_reg {a v : Word} (h : a.toNat ≤ 32775) (h' : 32768 ≤ a.toNat) (hv : v.toNat ≤ 32767) (s : State) :
    storeSet a v s = .done () (writeReg (regOfAddr a) (v.setWidth 15) s) := by
  unfold storeSet
  rw [if_neg (by simp only [Config.addrMax]; omega), if_neg (by simp only [Config.wordMax]; omega), if_pos h']

/-- A legal store of a data word puts it at its address and changes nothing else (20_memory.md R55). -/
theorem storeSet_legal {a v : Word} (h : a.toNat ≤ 32775) (hv : v.toNat ≤ 32767) (s : State) :
    ∃ t, storeSet a v s = .done () t ∧ StoredAt s a.toNat v.toNat t := by
  by_cases h' : 32768 ≤ a.toNat
  · refine ⟨_, storeSet_reg h h' hv s, ?_⟩
    have e : a.toNat = 32768 + (regOfAddr a).val := by rw [regOfAddr_val h h']; omega
    have := storedAt_writeReg s (regOfAddr a) (v.setWidth 15)
    rwa [← e, toNat_setWidth_15 hv] at this
  · exact ⟨_, storeSet_cell (by omega) hv s, storedAt_writeCell s v (by omega)⟩

/-- Everything StoreSet can do: raise one of its two faults, write a cell, or write a register. -/
theorem storeSet_cases (a v : Word) (s : State) :
    (32775 < a.toNat ∧ storeSet a v s = .stop (raise .addressRange a s)) ∨
    (32767 < v.toNat ∧ storeSet a v s = .stop (raise .valueRange v s)) ∨
    (a.toNat < 32768 ∧ v.toNat ≤ 32767 ∧ storeSet a v s = .done () (writeCell a.toNat v s)) ∨
    (32768 ≤ a.toNat ∧ a.toNat ≤ 32775 ∧ v.toNat ≤ 32767 ∧
      storeSet a v s = .done () (writeReg (regOfAddr a) (v.setWidth 15) s)) := by
  by_cases h : 32775 < a.toNat
  · exact .inl ⟨h, storeSet_illegal h v s⟩
  by_cases hv : 32767 < v.toNat
  · exact .inr (.inl ⟨hv, storeSet_value (by omega) hv s⟩)
  by_cases h' : 32768 ≤ a.toNat
  · exact .inr (.inr (.inr ⟨h', by omega, by omega, storeSet_reg (by omega) h' (by omega) s⟩))
  · exact .inr (.inr (.inl ⟨by omega, by omega, storeSet_cell (by omega) (by omega) s⟩))

/-- An instruction that ends in a store: everything its outcome can be. -/
theorem storeSet_outcome_cases {a v : Word} {s t : State} (h : (storeSet a v s).outcome = .next t) :
    (32775 < a.toNat ∧ t = raise .addressRange a s) ∨
    (32767 < v.toNat ∧ t = raise .valueRange v s) ∨
    (a.toNat < 32768 ∧ v.toNat ≤ 32767 ∧ t = writeCell a.toNat v s) ∨
    (32768 ≤ a.toNat ∧ a.toNat ≤ 32775 ∧ v.toNat ≤ 32767 ∧
      t = writeReg (regOfAddr a) (v.setWidth 15) s) := by
  rcases storeSet_cases a v s with ⟨ha, e⟩ | ⟨hv, e⟩ | ⟨ha, hv, e⟩ | ⟨ha, ha', hv, e⟩ <;>
    rw [e] at h <;> simp only [Res.outcome, Host.Outcome.next.injEq] at h <;> subst h
  · exact .inl ⟨ha, rfl⟩
  · exact .inr (.inl ⟨hv, rfl⟩)
  · exact .inr (.inr (.inl ⟨ha, hv, rfl⟩))
  · exact .inr (.inr (.inr ⟨ha, ha', hv, rfl⟩))

/-! ### The call stack -/

theorem stackFull_iff (s : State) : stackFull s = true ↔ s.params.stackDepth = some s.stack.length := by
  unfold stackFull
  cases s.params.stackDepth with
  | none => simp
  | some d => simp only [beq_iff_eq, Option.some.injEq]; exact eq_comm

/-- Everything Push can do (10_state.md R25). -/
theorem push_cases (v : Word) (s : State) :
    (32767 < v.toNat ∧ push v s = .stop (raise .valueRange v s)) ∨
    (v.toNat ≤ 32767 ∧ s.params.stackDepth = some s.stack.length ∧
      push v s = .stop (raise .stackOverflow v s)) ∨
    (v.toNat ≤ 32767 ∧ s.params.stackDepth ≠ some s.stack.length ∧
      push v s = .done () (setStack (s.stack ++ [v.setWidth 15]) s)) := by
  unfold push
  by_cases hv : 32767 < v.toNat
  · exact .inl ⟨hv, if_pos hv⟩
  rw [if_neg hv]
  by_cases hf : stackFull s = true
  · exact .inr (.inl ⟨by omega, (stackFull_iff s).mp hf, if_pos hf⟩)
  · exact .inr (.inr ⟨by omega, fun h => hf ((stackFull_iff s).mpr h), if_neg hf⟩)

theorem pop_empty {s : State} (h : s.stack = []) : pop s = .stop (raise .stackUnderflow 0 s) := by
  simp [pop, h]

theorem pop_concat {s : State} {st : List Value} {v : Value} (h : s.stack = st ++ [v]) :
    pop s = .done v (setStack st s) := by
  simp [pop, h]

/-- Everything Pop can do (10_state.md R25). -/
theorem pop_cases (s : State) :
    (s.stack = [] ∧ pop s = .stop (raise .stackUnderflow 0 s)) ∨
    (∃ st v, s.stack = st ++ [v] ∧ pop s = .done v (setStack st s)) := by
  rcases List.eq_nil_or_concat s.stack with h | ⟨st, v, h⟩
  · exact .inl ⟨h, pop_empty h⟩
  · exact .inr ⟨st, v, by simpa using h, pop_concat (by simpa using h)⟩

/-! ### Input -/

/-- Everything Receive can do (44_io.md R173). -/
theorem receive_cases (s : State) :
    (s.input = [] ∧ receive s = none) ∨
    (∃ k rest, s.input = k :: rest ∧ receive s = some (k, consumeInput rest s)) := by
  unfold receive
  split
  · exact .inl ⟨‹_›, rfl⟩
  · exact .inr ⟨_, _, ‹_›, rfl⟩

/-! ### Sequencing -/

@[simp] theorem andThen_done {α β : Type} (v : α) (s : State) (k : α → State → Res β) :
    (Res.done v s).andThen k = k v s := rfl

@[simp] theorem andThen_stop {α β : Type} (s : State) (k : α → State → Res β) :
    (Res.stop s : Res α).andThen k = .stop s := rfl

@[simp] theorem outcome_done (s : State) : (Res.done () s).outcome = .next s := rfl

@[simp] theorem outcome_stop (s : State) : (Res.stop s : Res Unit).outcome = .next s := rfl

end Sys2Proof.Machine
end

