-- ==== Sys2Proof/Laws/Decode.lean ====
section
/-! SUPPORT. The decoder and the encoder, operand by operand and row by row. -/

namespace Sys2Proof

open Sys2Proof.Machine (toNat_setWidth_16 toNat_setWidth_15 word_reg_toNat setWidth_15_16 setWidth_16_15)

/-! ### Operands -/

theorem ofWord_lit {w : Word} (h : w.toNat ≤ 32767) : Operand.ofWord w = .lit (w.setWidth 15) := if_pos h

theorem ofWord_reg {w : Word} (h : 32767 < w.toNat) (h' : w.toNat ≤ 32775) :
    Operand.ofWord w = .reg (regOfWord w) :=
  (if_neg (by simp only [Config.wordMax]; omega)).trans (if_pos h')

theorem ofWord_high {w : Word} (h : 32775 < w.toNat) : Operand.ofWord w = .high w :=
  (if_neg (by simp only [Config.wordMax]; omega)).trans (if_neg (by simp only [Config.addrMax]; omega))

theorem dest_ofWord_cell {w : Word} (h : w.toNat ≤ 32767) : Dest.ofWord w = .cell (w.setWidth 15) := if_pos h

theorem dest_ofWord_reg {w : Word} (h : 32767 < w.toNat) (h' : w.toNat ≤ 32775) :
    Dest.ofWord w = .reg (regOfWord w) :=
  (if_neg (by simp only [Config.wordMax]; omega)).trans (if_pos h')

theorem dest_ofWord_illegal {w : Word} (h : 32775 < w.toNat) : Dest.ofWord w = .illegal w :=
  (if_neg (by simp only [Config.wordMax]; omega)).trans (if_neg (by simp only [Config.addrMax]; omega))

theorem regOfWord_alias (r : Reg) : regOfWord (BitVec.ofNat 16 (32768 + r.val)) = r := by
  apply Fin.ext
  have := r.isLt
  simp only [regOfWord, Config.regBase, word_reg_toNat, Fin.val_ofNat]
  omega

theorem value_word_low (n : Value) : (n.setWidth 16).toNat ≤ 32767 := by
  rw [toNat_setWidth_16]; have := n.isLt; omega

theorem alias_range (r : Reg) :
    32767 < (BitVec.ofNat 16 (32768 + r.val)).toNat ∧ (BitVec.ofNat 16 (32768 + r.val)).toNat ≤ 32775 := by
  rw [word_reg_toNat]; have := r.isLt; omega

/-- The class of an operand's word is the operand (30_encoding.md R72). -/
theorem ofWord_word {a : Operand} (h : a.wf) : Operand.ofWord a.word = a := by
  cases a with
  | lit n => exact (ofWord_lit (value_word_low n)).trans (congrArg _ (setWidth_15_16 n))
  | reg r => exact (ofWord_reg (alias_range r).1 (alias_range r).2).trans (congrArg _ (regOfWord_alias r))
  | high w => exact ofWord_high (of_decide_eq_true h)

/-- What a destination's address names is the destination (30_encoding.md R74). -/
theorem ofWord_addr {a : Dest} (h : a.wf) : Dest.ofWord a.addr = a := by
  cases a with
  | cell n => exact (dest_ofWord_cell (value_word_low n)).trans (congrArg _ (setWidth_15_16 n))
  | reg r => exact (dest_ofWord_reg (alias_range r).1 (alias_range r).2).trans (congrArg _ (regOfWord_alias r))
  | illegal w => exact dest_ofWord_illegal (of_decide_eq_true h)

theorem reg_word_of_range {w : Word} (h : 32767 < w.toNat) (h' : w.toNat ≤ 32775) :
    BitVec.ofNat 16 (32768 + (regOfWord w).val) = w := by
  apply BitVec.eq_of_toNat_eq
  rw [word_reg_toNat]
  simp only [regOfWord, Config.regBase, Fin.val_ofNat]
  omega

/-- Every word is an operand word, of a well-formed class (30_encoding.md R72, R78). -/
theorem word_ofWord (w : Word) : (Operand.ofWord w).word = w ∧ (Operand.ofWord w).wf = true := by
  by_cases h : w.toNat ≤ 32767
  · rw [ofWord_lit h]; exact ⟨setWidth_16_15 h, rfl⟩
  by_cases h' : w.toNat ≤ 32775
  · rw [ofWord_reg (by omega) h']; exact ⟨reg_word_of_range (by omega) h', rfl⟩
  · rw [ofWord_high (by omega)]
    exact ⟨rfl, decide_eq_true (by simp only [Config.addrMax]; omega)⟩

/-- Every word is a destination word, of a well-formed class (30_encoding.md R74, R78). -/
theorem addr_ofWord (w : Word) : (Dest.ofWord w).addr = w ∧ (Dest.ofWord w).wf = true := by
  by_cases h : w.toNat ≤ 32767
  · rw [dest_ofWord_cell h]; exact ⟨setWidth_16_15 h, rfl⟩
  by_cases h' : w.toNat ≤ 32775
  · rw [dest_ofWord_reg (by omega) h']; exact ⟨reg_word_of_range (by omega) h', rfl⟩
  · rw [dest_ofWord_illegal (by omega)]
    exact ⟨rfl, decide_eq_true (by simp only [Config.addrMax]; omega)⟩

/-! ### Whole instructions -/

/-- Whatever decodes is well-formed, and its words stand at the front of the list. -/
theorem decodeOperands_sound {op : Word} {ws rest : List Word} {i : Instr}
    (h : decodeOperands op.toNat ws = some (i, rest)) : i.wf ∧ encode i ++ rest = op :: ws := by
  have hop : op = BitVec.ofNat 16 op.toNat := by simp
  generalize hn : op.toNat = n at h hop
  subst hop
  clear hn
  unfold decodeOperands at h
  split at h <;>
    first
    | (simp only [Option.some.injEq, Prod.mk.injEq] at h; obtain ⟨rfl, rfl⟩ := h
       exact ⟨rfl, rfl⟩)
    | (unfold take1 at h; split at h <;> simp only [Option.some.injEq, Prod.mk.injEq, reduceCtorEq] at h
       obtain ⟨rfl, rfl⟩ := h
       simp [Instr.wf, encode, word_ofWord, addr_ofWord])
    | (unfold take2 at h; split at h <;> simp only [Option.some.injEq, Prod.mk.injEq, reduceCtorEq] at h
       obtain ⟨rfl, rfl⟩ := h
       simp [Instr.wf, encode, word_ofWord, addr_ofWord])
    | (unfold take3 at h; split at h <;> simp only [Option.some.injEq, Prod.mk.injEq, reduceCtorEq] at h
       obtain ⟨rfl, rfl⟩ := h
       simp [Instr.wf, encode, word_ofWord, addr_ofWord])
    | simp at h

/-- A legal opcode has a row in the table, and only a legal one. -/
theorem arity_none_iff (op : Word) : arity op = none ↔ Config.opcodeMax < op.toNat := by
  unfold arity
  generalize op.toNat = n
  constructor
  · intro h
    by_contra hn
    simp only [Config.opcodeMax] at hn
    have hle : n ≤ 21 := by omega
    clear hn
    interval_cases n <;> simp [opTable] at h
  · intro h
    simp only [Config.opcodeMax] at h
    unfold opTable
    split <;> first | omega | rfl

end Sys2Proof
end

