-- ==== Sys2Proof/Laws/PerInstr.lean ====
section
/-! SUPPORT. Facts of every instruction as syntax, one lemma for each constructor: the row of its encoding in the opcode
map, and that the decoder reads back what the encoder writes. -/

namespace Sys2Proof

/-- The encoding starts with a legal opcode whose table row counts the operand words (30_encoding.md R70, R75, R79). -/
def Laws.EncodingRow.Statement (i : Instr) : Prop :=
  ∃ op ws, encode i = op :: ws ∧ arity op = some ws.length

/-- The decoder reads a well-formed instruction back from its words, whatever words follow. -/
def Laws.ReadBack.Statement (i : Instr) : Prop :=
  i.wf → ∀ rest, decode (encode i ++ rest) = .ok (i, rest)

theorem Laws.EncodingRow.halt : Laws.EncodingRow.Statement (.halt) :=
  ⟨_, _, rfl, rfl⟩

theorem Laws.EncodingRow.set (a : Dest) (b : Operand) : Laws.EncodingRow.Statement (.set a b) :=
  ⟨_, _, rfl, rfl⟩

theorem Laws.EncodingRow.push (a : Operand) : Laws.EncodingRow.Statement (.push a) :=
  ⟨_, _, rfl, rfl⟩

theorem Laws.EncodingRow.pop (a : Dest) : Laws.EncodingRow.Statement (.pop a) :=
  ⟨_, _, rfl, rfl⟩

theorem Laws.EncodingRow.eq (a : Dest) (b c : Operand) : Laws.EncodingRow.Statement (.eq a b c) :=
  ⟨_, _, rfl, rfl⟩

theorem Laws.EncodingRow.gt (a : Dest) (b c : Operand) : Laws.EncodingRow.Statement (.gt a b c) :=
  ⟨_, _, rfl, rfl⟩

theorem Laws.EncodingRow.jmp (a : Operand) : Laws.EncodingRow.Statement (.jmp a) :=
  ⟨_, _, rfl, rfl⟩

theorem Laws.EncodingRow.jt (a b : Operand) : Laws.EncodingRow.Statement (.jt a b) :=
  ⟨_, _, rfl, rfl⟩

theorem Laws.EncodingRow.jf (a b : Operand) : Laws.EncodingRow.Statement (.jf a b) :=
  ⟨_, _, rfl, rfl⟩

theorem Laws.EncodingRow.add (a : Dest) (b c : Operand) : Laws.EncodingRow.Statement (.add a b c) :=
  ⟨_, _, rfl, rfl⟩

theorem Laws.EncodingRow.mult (a : Dest) (b c : Operand) : Laws.EncodingRow.Statement (.mult a b c) :=
  ⟨_, _, rfl, rfl⟩

theorem Laws.EncodingRow.mod (a : Dest) (b c : Operand) : Laws.EncodingRow.Statement (.mod a b c) :=
  ⟨_, _, rfl, rfl⟩

theorem Laws.EncodingRow.and (a : Dest) (b c : Operand) : Laws.EncodingRow.Statement (.and a b c) :=
  ⟨_, _, rfl, rfl⟩

theorem Laws.EncodingRow.or (a : Dest) (b c : Operand) : Laws.EncodingRow.Statement (.or a b c) :=
  ⟨_, _, rfl, rfl⟩

theorem Laws.EncodingRow.not (a : Dest) (b : Operand) : Laws.EncodingRow.Statement (.not a b) :=
  ⟨_, _, rfl, rfl⟩

theorem Laws.EncodingRow.rmem (a : Dest) (b : Operand) : Laws.EncodingRow.Statement (.rmem a b) :=
  ⟨_, _, rfl, rfl⟩

theorem Laws.EncodingRow.wmem (a b : Operand) : Laws.EncodingRow.Statement (.wmem a b) :=
  ⟨_, _, rfl, rfl⟩

theorem Laws.EncodingRow.call (a : Operand) : Laws.EncodingRow.Statement (.call a) :=
  ⟨_, _, rfl, rfl⟩

theorem Laws.EncodingRow.ret : Laws.EncodingRow.Statement (.ret) :=
  ⟨_, _, rfl, rfl⟩

theorem Laws.EncodingRow.out (a : Operand) : Laws.EncodingRow.Statement (.out a) :=
  ⟨_, _, rfl, rfl⟩

theorem Laws.EncodingRow.input (a : Dest) : Laws.EncodingRow.Statement (.input a) :=
  ⟨_, _, rfl, rfl⟩

theorem Laws.EncodingRow.noop : Laws.EncodingRow.Statement (.noop) :=
  ⟨_, _, rfl, rfl⟩

theorem Laws.ReadBack.halt : Laws.ReadBack.Statement (.halt) := fun _ _ => rfl

theorem Laws.ReadBack.set (a : Dest) (b : Operand) : Laws.ReadBack.Statement (.set a b) := by
  intro h rest
  simp only [Instr.wf, Bool.and_eq_true] at h
  obtain ⟨ha, hb⟩ := h
  simp [decode, encode, Config.opcodeMax, decodeOperands, take2, ofWord_addr ha, ofWord_word hb]

theorem Laws.ReadBack.push (a : Operand) : Laws.ReadBack.Statement (.push a) := by
  intro h rest
  have ha := h
  simp [decode, encode, Config.opcodeMax, decodeOperands, take1, ofWord_word ha]

theorem Laws.ReadBack.pop (a : Dest) : Laws.ReadBack.Statement (.pop a) := by
  intro h rest
  have ha := h
  simp [decode, encode, Config.opcodeMax, decodeOperands, take1, ofWord_addr ha]

theorem Laws.ReadBack.eq (a : Dest) (b c : Operand) : Laws.ReadBack.Statement (.eq a b c) := by
  intro h rest
  simp only [Instr.wf, Bool.and_eq_true] at h
  obtain ⟨⟨ha, hb⟩, hc⟩ := h
  simp [decode, encode, Config.opcodeMax, decodeOperands, take3, ofWord_addr ha, ofWord_word hb, ofWord_word hc]

theorem Laws.ReadBack.gt (a : Dest) (b c : Operand) : Laws.ReadBack.Statement (.gt a b c) := by
  intro h rest
  simp only [Instr.wf, Bool.and_eq_true] at h
  obtain ⟨⟨ha, hb⟩, hc⟩ := h
  simp [decode, encode, Config.opcodeMax, decodeOperands, take3, ofWord_addr ha, ofWord_word hb, ofWord_word hc]

theorem Laws.ReadBack.jmp (a : Operand) : Laws.ReadBack.Statement (.jmp a) := by
  intro h rest
  have ha := h
  simp [decode, encode, Config.opcodeMax, decodeOperands, take1, ofWord_word ha]

theorem Laws.ReadBack.jt (a b : Operand) : Laws.ReadBack.Statement (.jt a b) := by
  intro h rest
  simp only [Instr.wf, Bool.and_eq_true] at h
  obtain ⟨ha, hb⟩ := h
  simp [decode, encode, Config.opcodeMax, decodeOperands, take2, ofWord_word ha, ofWord_word hb]

theorem Laws.ReadBack.jf (a b : Operand) : Laws.ReadBack.Statement (.jf a b) := by
  intro h rest
  simp only [Instr.wf, Bool.and_eq_true] at h
  obtain ⟨ha, hb⟩ := h
  simp [decode, encode, Config.opcodeMax, decodeOperands, take2, ofWord_word ha, ofWord_word hb]

theorem Laws.ReadBack.add (a : Dest) (b c : Operand) : Laws.ReadBack.Statement (.add a b c) := by
  intro h rest
  simp only [Instr.wf, Bool.and_eq_true] at h
  obtain ⟨⟨ha, hb⟩, hc⟩ := h
  simp [decode, encode, Config.opcodeMax, decodeOperands, take3, ofWord_addr ha, ofWord_word hb, ofWord_word hc]

theorem Laws.ReadBack.mult (a : Dest) (b c : Operand) : Laws.ReadBack.Statement (.mult a b c) := by
  intro h rest
  simp only [Instr.wf, Bool.and_eq_true] at h
  obtain ⟨⟨ha, hb⟩, hc⟩ := h
  simp [decode, encode, Config.opcodeMax, decodeOperands, take3, ofWord_addr ha, ofWord_word hb, ofWord_word hc]

theorem Laws.ReadBack.mod (a : Dest) (b c : Operand) : Laws.ReadBack.Statement (.mod a b c) := by
  intro h rest
  simp only [Instr.wf, Bool.and_eq_true] at h
  obtain ⟨⟨ha, hb⟩, hc⟩ := h
  simp [decode, encode, Config.opcodeMax, decodeOperands, take3, ofWord_addr ha, ofWord_word hb, ofWord_word hc]

theorem Laws.ReadBack.and (a : Dest) (b c : Operand) : Laws.ReadBack.Statement (.and a b c) := by
  intro h rest
  simp only [Instr.wf, Bool.and_eq_true] at h
  obtain ⟨⟨ha, hb⟩, hc⟩ := h
  simp [decode, encode, Config.opcodeMax, decodeOperands, take3, ofWord_addr ha, ofWord_word hb, ofWord_word hc]

theorem Laws.ReadBack.or (a : Dest) (b c : Operand) : Laws.ReadBack.Statement (.or a b c) := by
  intro h rest
  simp only [Instr.wf, Bool.and_eq_true] at h
  obtain ⟨⟨ha, hb⟩, hc⟩ := h
  simp [decode, encode, Config.opcodeMax, decodeOperands, take3, ofWord_addr ha, ofWord_word hb, ofWord_word hc]

theorem Laws.ReadBack.not (a : Dest) (b : Operand) : Laws.ReadBack.Statement (.not a b) := by
  intro h rest
  simp only [Instr.wf, Bool.and_eq_true] at h
  obtain ⟨ha, hb⟩ := h
  simp [decode, encode, Config.opcodeMax, decodeOperands, take2, ofWord_addr ha, ofWord_word hb]

theorem Laws.ReadBack.rmem (a : Dest) (b : Operand) : Laws.ReadBack.Statement (.rmem a b) := by
  intro h rest
  simp only [Instr.wf, Bool.and_eq_true] at h
  obtain ⟨ha, hb⟩ := h
  simp [decode, encode, Config.opcodeMax, decodeOperands, take2, ofWord_addr ha, ofWord_word hb]

theorem Laws.ReadBack.wmem (a b : Operand) : Laws.ReadBack.Statement (.wmem a b) := by
  intro h rest
  simp only [Instr.wf, Bool.and_eq_true] at h
  obtain ⟨ha, hb⟩ := h
  simp [decode, encode, Config.opcodeMax, decodeOperands, take2, ofWord_word ha, ofWord_word hb]

theorem Laws.ReadBack.call (a : Operand) : Laws.ReadBack.Statement (.call a) := by
  intro h rest
  have ha := h
  simp [decode, encode, Config.opcodeMax, decodeOperands, take1, ofWord_word ha]

theorem Laws.ReadBack.ret : Laws.ReadBack.Statement (.ret) := fun _ _ => rfl

theorem Laws.ReadBack.out (a : Operand) : Laws.ReadBack.Statement (.out a) := by
  intro h rest
  have ha := h
  simp [decode, encode, Config.opcodeMax, decodeOperands, take1, ofWord_word ha]

theorem Laws.ReadBack.input (a : Dest) : Laws.ReadBack.Statement (.input a) := by
  intro h rest
  have ha := h
  simp [decode, encode, Config.opcodeMax, decodeOperands, take1, ofWord_addr ha]

theorem Laws.ReadBack.noop : Laws.ReadBack.Statement (.noop) := fun _ _ => rfl

end Sys2Proof
end

