-- ==== Sys2Proof/Laws/Fetch.lean ====
section
/-! SUPPORT. What fetching can do, said once: the words it reads, where it leaves the pc, and the four ways it ends. -/

namespace Sys2Proof.Machine

/-- The `n` words from address `a` up. -/
def wordsFrom (m : Memory) (a n : Nat) : List Word := (List.range n).map fun k => m.read (a + k)

theorem wordsFrom_length (m : Memory) (a n : Nat) : (wordsFrom m a n).length = n := by simp [wordsFrom]

theorem wordsFrom_zero (m : Memory) (a : Nat) : wordsFrom m a 0 = [] := rfl

theorem wordsFrom_succ (m : Memory) (a n : Nat) :
    wordsFrom m a (n + 1) = m.read a :: wordsFrom m (a + 1) n := by
  simp [wordsFrom, List.range_succ_eq_map, Function.comp_def, Nat.add_comm, Nat.add_left_comm]

/-- The words at the pc are `ws`, read off one by one. -/
theorem CodeAt.wordsFrom_eq {s : State} {ws : List Word} (h : CodeAt s ws) :
    wordsFrom s.mem s.pc.toNat ws.length = ws := by
  apply List.ext_getElem (wordsFrom_length _ _ _)
  intro k _ hk
  simpa [wordsFrom] using h.words k hk

theorem codeAt_of_wordsFrom {s : State} {ws : List Word} (hr : s.runState = .running)
    (hp : s.pc.toNat + ws.length ≤ 32768) (h : ws = wordsFrom s.mem s.pc.toNat ws.length) : CodeAt s ws := by
  refine ⟨hr, hp, fun k hk => ?_⟩
  have := congrArg (·[k]?) h
  simp only [wordsFrom, List.getElem?_map, List.getElem?_range hk, List.getElem?_eq_getElem hk,
    Option.map_some, Option.some.injEq] at this
  exact this.symm

@[simp] theorem jump_jump (a b : Word) (s : State) : jump b (jump a s) = jump b s := rfl

theorem pc_add_toNat {pc : Word} {n : Nat} (h : pc.toNat + n ≤ 32768) :
    (pc + BitVec.ofNat 16 n).toNat = pc.toNat + n := by
  rw [BitVec.toNat_add, BitVec.toNat_ofNat]; omega

theorem pc_add_one_add (pc : Word) (n : Nat) :
    pc + 1 + BitVec.ofNat 16 n = pc + BitVec.ofNat 16 (n + 1) := by
  apply BitVec.eq_of_toNat_eq
  have h1 : (1 : Word).toNat = 1 := rfl
  simp only [BitVec.toNat_add, BitVec.toNat_ofNat, h1]
  omega

theorem fetchWord_ok {s : State} (h : s.pc.toNat ≤ 32767) :
    fetchWord s = .done (s.mem.read s.pc.toNat) (jump (s.pc + 1) s) :=
  if_neg (by simp only [Config.wordMax]; omega)

theorem fetchWord_past {s : State} (h : 32767 < s.pc.toNat) :
    fetchWord s = .stop (raise .addressRange s.pc s) := if_pos h

/-- Operand words in memory are read, and the pc is past them (40_dispatch.md R92). -/
theorem fetchWords_ok {n : Nat} {s : State} (h : s.pc.toNat + n ≤ 32768) :
    fetchWords n s = .done (wordsFrom s.mem s.pc.toNat n) (jump (s.pc + BitVec.ofNat 16 n) s) := by
  induction n generalizing s with
  | zero => simp [fetchWords, wordsFrom_zero, jump]
  | succ n ih =>
    have h1 : (s.pc + 1).toNat = s.pc.toNat + 1 := pc_add_toNat (n := 1) (by omega)
    rw [fetchWords, fetchWord_ok (by omega), andThen_done, ih (by rw [jump_pc, h1]; omega), andThen_done,
      jump_pc, h1, jump_mem, jump_jump, ← wordsFrom_succ, pc_add_one_add]

/-- Operand words that run past address 32767 fault at 32768, the pc left there (40_dispatch.md R92, R94). -/
theorem fetchWords_past {n : Nat} {s : State} (h : s.pc.toNat ≤ 32768) (h' : 32768 < s.pc.toNat + n) :
    fetchWords n s = .stop (raise .addressRange 32768 (jump 32768 s)) := by
  induction n generalizing s with
  | zero => omega
  | succ n ih =>
    by_cases hp : s.pc.toNat ≤ 32767
    · have h1 : (s.pc + 1).toNat = s.pc.toNat + 1 := pc_add_toNat (n := 1) (by omega)
      rw [fetchWords, fetchWord_ok hp, andThen_done,
        ih (by rw [jump_pc, h1]; omega) (by rw [jump_pc, h1]; omega), andThen_stop, jump_jump]
    · have hpc : s.pc = 32768 := by apply BitVec.eq_of_toNat_eq; simp; omega
      have hj : jump 32768 s = s := by rw [← hpc]; rfl
      rw [fetchWords, fetchWord_past (by omega), andThen_stop, hj, hpc]

theorem fetchInstr_past {s : State} (h : 32767 < s.pc.toNat) :
    fetchInstr s = .stop (raise .addressRange s.pc s) := by rw [fetchInstr, fetchWord_past h, andThen_stop]

theorem fetchInstr_invalid {s : State} (h : s.pc.toNat ≤ 32767) (ha : arity (s.mem.read s.pc.toNat) = none) :
    fetchInstr s = .stop (raise .invalidOpcode (s.mem.read s.pc.toNat) (jump (s.pc + 1) s)) := by
  rw [fetchInstr, fetchWord_ok h, andThen_done]; simp only [ha]

theorem fetchInstr_arity {s : State} {n : Nat} (h : s.pc.toNat ≤ 32767)
    (ha : arity (s.mem.read s.pc.toNat) = some n) :
    fetchInstr s = (fetchWords n (jump (s.pc + 1) s)).andThen (decodeFetched (s.mem.read s.pc.toNat)) := by
  rw [fetchInstr, fetchWord_ok h, andThen_done]; simp only [ha]

/-- A row of the opcode map decodes from as many operand words as it has. -/
theorem decodeOperands_of_arity {op : Word} {ws : List Word} (h : arity op = some ws.length) :
    ∃ i, decodeOperands op.toNat ws = some (i, []) := by
  unfold arity at h
  generalize op.toNat = n at h ⊢
  have hle : n ≤ 21 := by
    by_contra hn
    have : opTable n = none := by unfold opTable; split <;> first | omega | rfl
    simp [this] at h
  interval_cases n <;> simp [opTable] at h <;>
    first
    | (obtain rfl : ws = [] := List.length_eq_zero_iff.mp h.symm; exact ⟨_, rfl⟩)
    | (obtain ⟨a, rfl⟩ := List.length_eq_one_iff.mp h.symm; exact ⟨_, rfl⟩)
    | (obtain ⟨a, b, rfl⟩ := List.length_eq_two.mp h.symm; exact ⟨_, rfl⟩)
    | (obtain ⟨a, b, c, rfl⟩ := List.length_eq_three.mp h.symm; exact ⟨_, rfl⟩)

/-- Everything the fetch can do, for a pc in any place: fault at the opcode, reject the opcode, fault at an operand, or
give the well-formed instruction whose words stand at the pc (40_dispatch.md R91, R92, R98). -/
theorem fetchInstr_cases (s : State) :
    (32767 < s.pc.toNat ∧ fetchInstr s = .stop (raise .addressRange s.pc s)) ∨
    (s.pc.toNat ≤ 32767 ∧ 21 < (s.mem.read s.pc.toNat).toNat ∧
      fetchInstr s = .stop (raise .invalidOpcode (s.mem.read s.pc.toNat) (jump (s.pc + 1) s))) ∨
    (∃ n, s.pc.toNat ≤ 32767 ∧ arity (s.mem.read s.pc.toNat) = some n ∧ 32767 < s.pc.toNat + n ∧
      fetchInstr s = .stop (raise .addressRange 32768 (jump 32768 s))) ∨
    (∃ i, i.wf = true ∧ s.pc.toNat + (encode i).length ≤ 32768 ∧
      encode i = wordsFrom s.mem s.pc.toNat (encode i).length ∧
      fetchInstr s = .done i (jump (s.pc + BitVec.ofNat 16 (encode i).length) s)) := by
  by_cases hp : 32767 < s.pc.toNat
  · exact .inl ⟨hp, fetchInstr_past hp⟩
  have h1 : (s.pc + 1).toNat = s.pc.toNat + 1 := pc_add_toNat (n := 1) (by omega)
  cases ha : arity (s.mem.read s.pc.toNat) with
  | none =>
    exact .inr (.inl ⟨by omega, (arity_none_iff _).mp ha, fetchInstr_invalid (by omega) ha⟩)
  | some n =>
    by_cases hn : 32767 < s.pc.toNat + n
    · refine .inr (.inr (.inl ⟨n, by omega, rfl, hn, ?_⟩))
      rw [fetchInstr_arity (by omega) ha, fetchWords_past (by rw [jump_pc, h1]; omega) (by rw [jump_pc, h1]; omega), andThen_stop, jump_jump]
    · refine .inr (.inr (.inr ?_))
      have hw := wordsFrom_length s.mem (s.pc.toNat + 1) n
      obtain ⟨i, hi⟩ := decodeOperands_of_arity (op := s.mem.read s.pc.toNat)
        (ws := wordsFrom s.mem (s.pc.toNat + 1) n) (by rw [hw]; exact ha)
      obtain ⟨hwf, he⟩ := decodeOperands_sound hi
      rw [List.append_nil] at he
      have hl : (encode i).length = n + 1 := by rw [he, List.length_cons, hw]
      refine ⟨i, hwf, by omega, by rw [hl, wordsFrom_succ, he], ?_⟩
      have hop : ¬ Config.opcodeMax < (s.mem.read s.pc.toNat).toNat := fun h => by
        rw [(arity_none_iff _).mpr h] at ha; cases ha
      have hd : decode (s.mem.read s.pc.toNat :: wordsFrom s.mem (s.pc.toNat + 1) n) = .ok (i, []) := by
        simp only [decode, if_neg hop, hi]
      rw [fetchInstr_arity (by omega) ha, fetchWords_ok (by rw [jump_pc, h1]; omega), andThen_done, jump_pc, h1, jump_mem, jump_jump, hl,
        pc_add_one_add]
      simp only [decodeFetched, hd]

/-- Where the words of a well-formed instruction stand at the pc, the fetch gives it. -/
theorem fetchInstr_of_code {s : State} {i : Instr} (hr : Laws.ReadBack.Statement i)
    (he : Laws.EncodingRow.Statement i) (hwf : i.wf = true) (hp : s.pc.toNat + (encode i).length ≤ 32768)
    (hw : wordsFrom s.mem s.pc.toNat (encode i).length = encode i) :
    fetchInstr s = .done i (jump (s.pc + BitVec.ofNat 16 (encode i).length) s) := by
  obtain ⟨op, ws, e, ha⟩ := he
  have hd := hr hwf []
  rw [List.append_nil, e] at hd
  rw [e] at hp hw ⊢
  rw [List.length_cons] at hp hw ⊢
  rw [wordsFrom_succ] at hw
  obtain ⟨h0, hws⟩ := List.cons.inj hw
  have h1 : (s.pc + 1).toNat = s.pc.toNat + 1 := pc_add_toNat (n := 1) (by omega)
  rw [fetchInstr_arity (by omega) (h0 ▸ ha), h0, fetchWords_ok (by rw [jump_pc, h1]; omega), andThen_done, jump_pc, h1, jump_mem, jump_jump, hws,
    pc_add_one_add]
  simp only [decodeFetched, hd]

end Sys2Proof.Machine
end

