-- ==== Sys2Proof/Laws/Step.lean ====
section
/-! SUPPORT. What a step can do, said once. -/

namespace Sys2Proof.Machine

theorem step_done {s t : State} {i : Instr} (h : s.runState = .running) (hf : fetchInstr (latchIa s) = .done i t) :
    step s = settle (exec i t) := by unfold step; simp only [h, hf]

theorem step_stop {s t : State} (h : s.runState = .running) (hf : fetchInstr (latchIa s) = .stop t) :
    step s = .next (settleWait t) := by unfold step; simp only [h, hf]

/-- A step is enabled only when RUNSTATE = RUNNING (40_dispatch.md R90). -/
theorem step_not_running {s t : State} (h : s.runState ≠ .running) : step s ≠ .next t := by
  unfold step
  cases hr : s.runState <;> simp_all

theorem jump_latchIa (s : State) (n : Nat) : jump (s.pc + BitVec.ofNat 16 n) (latchIa s) = afterFetch s n := rfl

/-- The four things a step of a running block can be: a fault at the opcode fetch, a rejected opcode, a fault at an
operand fetch, or the execution of the well-formed instruction at the pc. -/
theorem step_running_cases {s : State} (h : s.runState = .running) :
    (32767 < s.pc.toNat ∧ step s = .next (settleWait (raise .addressRange s.pc (latchIa s)))) ∨
    (s.pc.toNat ≤ 32767 ∧ 21 < (s.mem.read s.pc.toNat).toNat ∧ step s =
      .next (settleWait (raise .invalidOpcode (s.mem.read s.pc.toNat) (jump (s.pc + 1) (latchIa s))))) ∨
    (∃ n, s.pc.toNat ≤ 32767 ∧ arity (s.mem.read s.pc.toNat) = some n ∧ 32767 < s.pc.toNat + n ∧
      step s = .next (settleWait (raise .addressRange 32768 (jump 32768 (latchIa s))))) ∨
    (∃ i, i.wf = true ∧ CodeAt s (encode i) ∧ step s = settle (exec i (afterFetch s (encode i).length))) := by
  rcases fetchInstr_cases (latchIa s) with ⟨hp, e⟩ | ⟨hp, ho, e⟩ | ⟨n, hp, ha, hn, e⟩ | ⟨i, hw, hp, he, e⟩
  · exact .inl ⟨hp, step_stop h e⟩
  · exact .inr (.inl ⟨hp, ho, step_stop h e⟩)
  · exact .inr (.inr (.inl ⟨n, hp, ha, hn, step_stop h e⟩))
  · refine .inr (.inr (.inr ⟨i, hw, codeAt_of_wordsFrom h hp he, ?_⟩))
    rw [step_done h e, latchIa_pc, jump_latchIa]

/-- The inversion of a step that answers a next state: what it did, and then IN_WAIT. -/
theorem step_next_cases {s t : State} (h : step s = .next t) :
    s.runState = .running ∧ ∃ u, t = settleWait u ∧
    ((32767 < s.pc.toNat ∧ u = raise .addressRange s.pc (latchIa s)) ∨
    (s.pc.toNat ≤ 32767 ∧ 21 < (s.mem.read s.pc.toNat).toNat ∧
      u = raise .invalidOpcode (s.mem.read s.pc.toNat) (jump (s.pc + 1) (latchIa s))) ∨
    (∃ n, s.pc.toNat ≤ 32767 ∧ arity (s.mem.read s.pc.toNat) = some n ∧ 32767 < s.pc.toNat + n ∧
      u = raise .addressRange 32768 (jump 32768 (latchIa s))) ∨
    (∃ i, i.wf = true ∧ CodeAt s (encode i) ∧ exec i (afterFetch s (encode i).length) = .next u)) := by
  have hr : s.runState = .running := by
    by_contra hr; exact step_not_running hr h
  refine ⟨hr, ?_⟩
  rcases step_running_cases hr with ⟨hp, e⟩ | ⟨hp, ho, e⟩ | ⟨n, hp, ha, hn, e⟩ | ⟨i, hw, hc, e⟩ <;> rw [h] at e
  · exact ⟨_, Host.Outcome.next.inj e, .inl ⟨hp, rfl⟩⟩
  · exact ⟨_, Host.Outcome.next.inj e, .inr (.inl ⟨hp, ho, rfl⟩)⟩
  · exact ⟨_, Host.Outcome.next.inj e, .inr (.inr (.inl ⟨n, hp, ha, hn, rfl⟩))⟩
  · obtain ⟨u, hu, ht⟩ := settle_eq_next e.symm
    exact ⟨u, ht, .inr (.inr (.inr ⟨i, hw, hc, hu⟩))⟩

end Sys2Proof.Machine
end

