-- ==== Sys2Proof/Laws/Exec.lean ====
section
/-! SUPPORT. What an instruction can do to the state, said once for all 22 of them, so that no later proof unfolds a
meaning again. -/

namespace Sys2Proof.Machine

/-- The state from which an instruction's last check or store is made: the state it starts in, less the top a `pop` has
removed or the code an `in` has consumed. -/
inductive Before (i : Instr) (s : State) : State → Prop where
  | start : (∀ a, i ≠ .input a) → Before i s s
  | popped (a : Dest) (st : List Value) (v : Value) : i = .pop a → s.stack = st ++ [v] →
      Before i s (setStack st s)
  | received (a : Dest) (k : Word) (rest : List Word) : i = .input a → s.input = k :: rest →
      Before i s (consumeInput rest s)

/-- The address an instruction stores to: its raw destination, or for `wmem` the value of its first operand. -/
def Targets (i : Instr) (s : State) (a : Word) : Prop :=
  (∃ d, destOf i = some d ∧ a = d.addr) ∨ ∃ o o', i = .wmem o o' ∧ a = valueOf o s

/-- Everything an instruction can do. -/
inductive Effect (i : Instr) (s : State) : State → Prop where
  | unchanged : (i = .noop ∨ ∃ a b, i = .jt a b ∨ i = .jf a b) → Effect i s s
  | halted : (i = .halt ∨ (i = .ret ∧ s.stack = [] ∧ s.params.retEmptyPolicy = .halt)) → Effect i s (haltRun s)
  | jumped (o : Operand) : (i = .jmp o ∨ ∃ a, i = .jt a o ∨ i = .jf a o) → Effect i s (jump (valueOf o s) s)
  | called (o : Operand) : i = .call o → s.pc.toNat ≤ 32767 → s.params.stackDepth ≠ some s.stack.length →
      Effect i s (jump (valueOf o s) (setStack (s.stack ++ [s.pc.setWidth 15]) s))
  | returned (st : List Value) (v : Value) : i = .ret → s.stack = st ++ [v] →
      Effect i s (jump (v.setWidth 16) (setStack st s))
  | pushed (o : Operand) : i = .push o → (valueOf o s).toNat ≤ 32767 →
      s.params.stackDepth ≠ some s.stack.length →
      Effect i s (setStack (s.stack ++ [(valueOf o s).setWidth 15]) s)
  | emitted (o : Operand) : i = .out o → Effect i s (emit (valueOf o s) s)
  | raised (u : State) (e : FaultCode) (v : Word) : Before i s u → e ≠ .none → e ≠ .loadError →
      (e = .stackOverflow → s.params.stackDepth ≠ none) → Effect i s (raise e v u)
  | storedCell (u : State) (a v : Word) : Before i s u → Targets i s a → a.toNat < 32768 → v.toNat ≤ 32767 →
      Effect i s (writeCell a.toNat v u)
  | storedReg (u : State) (a v : Word) : Before i s u → Targets i s a → 32768 ≤ a.toNat → a.toNat ≤ 32775 →
      v.toNat ≤ 32767 → Effect i s (writeReg (regOfAddr a) (v.setWidth 15) u)

/-- An instruction that ends in `StoreSet` has the effect of a raise or of a store. -/
theorem effect_of_store {i : Instr} {s u t : State} {a v : Word} (hb : Before i s u) (ht : Targets i s a)
    (h : (storeSet a v u).outcome = .next t) : Effect i s t := by
  rcases storeSet_outcome_cases h with ⟨_, rfl⟩ | ⟨_, rfl⟩ | ⟨ha, hv, rfl⟩ | ⟨ha, ha', hv, rfl⟩
  · exact .raised u _ _ hb (by decide) (by decide) (fun e => nomatch e)
  · exact .raised u _ _ hb (by decide) (by decide) (fun e => nomatch e)
  · exact .storedCell u a v hb ht ha hv
  · exact .storedReg u a v hb ht ha ha' hv

/-- A fault raised at the start. -/
theorem effect_raise {i : Instr} {s : State} {e : FaultCode} {v : Word} (hi : ∀ a, i ≠ .input a) (h : e ≠ .none) (h' : e ≠ .loadError)
    (ho : e = .stackOverflow → s.params.stackDepth ≠ none) : Effect i s (raise e v s) :=
  .raised s e v (.start hi) h h' ho

/-- The inversion of `exec`: an instruction that answers `t` has had one of the effects. -/
theorem exec_effect {i : Instr} {s t : State} (h : exec i s = .next t) : Effect i s t := by
  cases i with
  | halt => cases h; exact .halted (.inl rfl)
  | noop => cases h; exact .unchanged (.inl rfl)
  | jmp a => cases h; exact .jumped a (.inl rfl)
  | out a => cases h; exact .emitted a rfl
  | jt a b =>
    simp only [exec, execJt, Host.Outcome.next.injEq] at h
    split at h <;> subst h
    · exact .jumped b (.inr ⟨a, .inl rfl⟩)
    · exact .unchanged (.inr ⟨a, b, .inl rfl⟩)
  | jf a b =>
    simp only [exec, execJf, Host.Outcome.next.injEq] at h
    split at h <;> subst h
    · exact .unchanged (.inr ⟨a, b, .inr rfl⟩)
    · exact .jumped b (.inr ⟨a, .inr rfl⟩)
  | call a =>
    simp only [exec, execCall] at h
    rcases push_cases s.pc s with ⟨_, e⟩ | ⟨_, hd, e⟩ | ⟨hv, hd, e⟩ <;>
      rw [e] at h <;> simp only [andThen_stop, andThen_done, outcome_stop, outcome_done,
        Host.Outcome.next.injEq] at h <;> subst h
    · exact effect_raise (fun _ h => nomatch h) (by decide) (by decide) (fun e => nomatch e)
    · exact effect_raise (fun _ h => nomatch h) (by decide) (by decide) fun _ => by rw [hd]; exact fun e => nomatch e
    · exact .called a rfl hv hd
  | push a =>
    simp only [exec, execPush] at h
    rcases push_cases (valueOf a s) s with ⟨_, e⟩ | ⟨_, hd, e⟩ | ⟨hv, hd, e⟩ <;>
      rw [e] at h <;> simp only [outcome_stop, outcome_done, Host.Outcome.next.injEq] at h <;> subst h
    · exact effect_raise (fun _ h => nomatch h) (by decide) (by decide) (fun e => nomatch e)
    · exact effect_raise (fun _ h => nomatch h) (by decide) (by decide) fun _ => by rw [hd]; exact fun e => nomatch e
    · exact .pushed a rfl hv hd
  | ret =>
    simp only [exec, execRet] at h
    split at h
    · rename_i hs
      split at h <;> simp only [Host.Outcome.next.injEq] at h <;> subst h
      · exact .halted (.inr ⟨rfl, hs, ‹_›⟩)
      · exact effect_raise (fun _ h => nomatch h) (by decide) (by decide) (fun e => nomatch e)
    · rename_i hs
      rcases pop_cases s with ⟨h', _⟩ | ⟨st, v, h', e⟩
      · exact absurd h' hs
      · rw [e] at h
        simp only [andThen_done, outcome_done, Host.Outcome.next.injEq] at h
        subst h
        exact .returned st v rfl h'
  | pop a =>
    simp only [exec, execPop] at h
    rcases pop_cases s with ⟨_, e⟩ | ⟨st, v, hs, e⟩ <;> rw [e] at h
    · simp only [andThen_stop, outcome_stop, Host.Outcome.next.injEq] at h
      subst h
      exact effect_raise (fun _ h => nomatch h) (by decide) (by decide) (fun e => nomatch e)
    · exact effect_of_store (.popped a st v rfl hs) (.inl ⟨a, rfl, rfl⟩) h
  | input a =>
    simp only [exec, execIn] at h
    rcases receive_cases s with ⟨_, e⟩ | ⟨k, rest, hs, e⟩ <;> rw [e] at h
    · cases h
    · exact effect_of_store (.received a k rest rfl hs) (.inl ⟨a, rfl, rfl⟩) h
  | rmem a b =>
    simp only [exec, execRmem] at h
    by_cases hb : (valueOf b s).toNat ≤ 32775
    · rw [storeGet_legal hb] at h
      exact effect_of_store (.start fun _ h => nomatch h) (.inl ⟨a, rfl, rfl⟩) h
    · rw [storeGet_illegal (by omega)] at h
      simp only [andThen_stop, outcome_stop, Host.Outcome.next.injEq] at h
      subst h
      exact effect_raise (fun _ h => nomatch h) (by decide) (by decide) (fun e => nomatch e)
  | mod a b c =>
    simp only [exec, execMod] at h
    split at h
    · simp only [Host.Outcome.next.injEq] at h
      subst h
      exact effect_raise (fun _ h => nomatch h) (by decide) (by decide) (fun e => nomatch e)
    · exact effect_of_store (.start fun _ h => nomatch h) (.inl ⟨a, rfl, rfl⟩) h
  | wmem a b => exact effect_of_store (.start fun _ h => nomatch h) (.inr ⟨a, b, rfl, rfl⟩) h
  | set a b => exact effect_of_store (.start fun _ h => nomatch h) (.inl ⟨a, rfl, rfl⟩) h
  | eq a b c => exact effect_of_store (.start fun _ h => nomatch h) (.inl ⟨a, rfl, rfl⟩) h
  | gt a b c => exact effect_of_store (.start fun _ h => nomatch h) (.inl ⟨a, rfl, rfl⟩) h
  | add a b c => exact effect_of_store (.start fun _ h => nomatch h) (.inl ⟨a, rfl, rfl⟩) h
  | mult a b c => exact effect_of_store (.start fun _ h => nomatch h) (.inl ⟨a, rfl, rfl⟩) h
  | and a b c => exact effect_of_store (.start fun _ h => nomatch h) (.inl ⟨a, rfl, rfl⟩) h
  | or a b c => exact effect_of_store (.start fun _ h => nomatch h) (.inl ⟨a, rfl, rfl⟩) h
  | not a b => exact effect_of_store (.start fun _ h => nomatch h) (.inl ⟨a, rfl, rfl⟩) h

/-- The opcode word at the pc of a state whose code is `encode i`. -/
theorem CodeAt.opcode {s : State} {i : Instr} (h : CodeAt s (encode i)) :
    (encode i).head? = some (s.mem.read s.pc.toNat) := by
  cases he : encode i with
  | nil => cases i <;> simp [encode] at he
  | cons op ws =>
    have h0 := h.words 0 (by rw [he]; simp)
    simp only [he, List.getElem_cons_zero, Nat.add_zero] at h0
    rw [h0]; rfl

end Sys2Proof.Machine
end

