-- ==== Sys2Proof/Tests/Slice0.lean ====
section
/-! SUPPORT. The model's own tests: the checks of WellFormed, each row's decoding from words written out from
30_encoding.md R75, single steps from the vectors of 95_test_vectors.md (their ids stand at each test), and a witness
for the hypotheses of every statement that has some. Expected results are the spec's. -/

namespace Sys2Proof.Tests

open Sys2Proof.Machine

/-- The reset state with `ws` at the pc. -/
def tiny (ws : List Word) : State := placeAtPc ws State.reset

/-- The state with `ws` at address `a`, where the pc stands. -/
def tinyAt (a : Word) (ws : List Word) : State := placeAtPc ws { State.reset with pc := a }

/-- `s` with the value `v` in register `r`. -/
def withReg (r : Reg) (v : Value) (s : State) : State := { s with regs := s.regs.set r v }

/-- The state a step answers, if it answers one. -/
def after (s : State) : Option State :=
  match step s with
  | .next t => some t
  | .fault _ => none
  | .refused _ => none

/-- A field of the state a step answers. -/
def see {α : Type} (f : State → α) (s : State) : Option α := (after s).map f

/-- What a fault leaves on the status ports, with the pc and IA. -/
def status (t : State) : RunState × FaultCode × Word × Word × Word :=
  (t.runState, t.faultCode, t.faultInfo, t.pc, t.ia)

/-! ### WellFormed: every check refuses an ill-formed term -/

theorem test_wf_operand_check : Operand.wf (.high 32775) = false ∧ Operand.wf (.high 32776) = true := by decide

theorem test_wf_dest_check : Dest.wf (.illegal 32775) = false ∧ Dest.wf (.illegal 32776) = true := by decide

theorem test_wf_refuses_each_position_one :
    Instr.wf (.set (.illegal 5) (.lit 0)) = false ∧
    Instr.wf (.set (.cell 0) (.high 5)) = false ∧
    Instr.wf (.push (.high 5)) = false ∧
    Instr.wf (.pop (.illegal 5)) = false ∧
    Instr.wf (.eq (.illegal 5) (.lit 0) (.lit 0)) = false ∧
    Instr.wf (.eq (.cell 0) (.high 5) (.lit 0)) = false ∧
    Instr.wf (.eq (.cell 0) (.lit 0) (.high 5)) = false ∧
    Instr.wf (.gt (.illegal 5) (.lit 0) (.lit 0)) = false ∧
    Instr.wf (.gt (.cell 0) (.high 5) (.lit 0)) = false ∧
    Instr.wf (.gt (.cell 0) (.lit 0) (.high 5)) = false ∧
    Instr.wf (.jmp (.high 5)) = false ∧
    Instr.wf (.jt (.high 5) (.lit 0)) = false ∧
    Instr.wf (.jt (.lit 0) (.high 5)) = false ∧
    Instr.wf (.jf (.high 5) (.lit 0)) = false ∧
    Instr.wf (.jf (.lit 0) (.high 5)) = false ∧
    Instr.wf (.add (.illegal 5) (.lit 0) (.lit 0)) = false ∧
    Instr.wf (.add (.cell 0) (.high 5) (.lit 0)) = false ∧
    Instr.wf (.add (.cell 0) (.lit 0) (.high 5)) = false ∧
    Instr.wf (.mult (.illegal 5) (.lit 0) (.lit 0)) = false := by decide

theorem test_wf_refuses_each_position_two :
    Instr.wf (.mult (.cell 0) (.high 5) (.lit 0)) = false ∧
    Instr.wf (.mult (.cell 0) (.lit 0) (.high 5)) = false ∧
    Instr.wf (.mod (.illegal 5) (.lit 0) (.lit 0)) = false ∧
    Instr.wf (.mod (.cell 0) (.high 5) (.lit 0)) = false ∧
    Instr.wf (.mod (.cell 0) (.lit 0) (.high 5)) = false ∧
    Instr.wf (.and (.illegal 5) (.lit 0) (.lit 0)) = false ∧
    Instr.wf (.and (.cell 0) (.high 5) (.lit 0)) = false ∧
    Instr.wf (.and (.cell 0) (.lit 0) (.high 5)) = false ∧
    Instr.wf (.or (.illegal 5) (.lit 0) (.lit 0)) = false ∧
    Instr.wf (.or (.cell 0) (.high 5) (.lit 0)) = false ∧
    Instr.wf (.or (.cell 0) (.lit 0) (.high 5)) = false ∧
    Instr.wf (.not (.illegal 5) (.lit 0)) = false ∧
    Instr.wf (.not (.cell 0) (.high 5)) = false ∧
    Instr.wf (.rmem (.illegal 5) (.lit 0)) = false ∧
    Instr.wf (.rmem (.cell 0) (.high 5)) = false ∧
    Instr.wf (.wmem (.high 5) (.lit 0)) = false ∧
    Instr.wf (.wmem (.lit 0) (.high 5)) = false ∧
    Instr.wf (.call (.high 5)) = false ∧
    Instr.wf (.out (.high 5)) = false ∧
    Instr.wf (.input (.illegal 5)) = false := by decide

/-! ### Decoding: each row's words, written out from the opcode map -/

theorem test_decode_halt : decode [0] = .ok (.halt, []) := rfl

theorem test_decode_set : decode [1, 32768, 5] = .ok (.set (.reg 0) (.lit 5), []) := rfl

theorem test_decode_push : decode [2, 32773] = .ok (.push (.reg 5), []) := rfl

theorem test_decode_pop : decode [3, 32772] = .ok (.pop (.reg 4), []) := rfl

theorem test_decode_eq : decode [4, 32768, 32769, 7] = .ok (.eq (.reg 0) (.reg 1) (.lit 7), []) := rfl

theorem test_decode_gt : decode [5, 32768, 32776, 32767] = .ok (.gt (.reg 0) (.high 32776) (.lit 32767), []) := rfl

theorem test_decode_jmp : decode [6, 40000] = .ok (.jmp (.high 40000), []) := rfl

theorem test_decode_jt : decode [7, 32768, 3] = .ok (.jt (.reg 0) (.lit 3), []) := rfl

theorem test_decode_jf : decode [8, 0, 50] = .ok (.jf (.lit 0) (.lit 50), []) := rfl

theorem test_decode_add : decode [9, 32769, 32768, 32767] = .ok (.add (.reg 1) (.reg 0) (.lit 32767), []) := rfl

theorem test_decode_mult : decode [10, 32770, 4, 5] = .ok (.mult (.reg 2) (.lit 4) (.lit 5), []) := rfl

theorem test_decode_mod : decode [11, 40000, 5, 0] = .ok (.mod (.illegal 40000) (.lit 5) (.lit 0), []) := rfl

theorem test_decode_and : decode [12, 32775, 12, 10] = .ok (.and (.reg 7) (.lit 12) (.lit 10), []) := rfl

theorem test_decode_or : decode [13, 32767, 12, 10] = .ok (.or (.cell 32767) (.lit 12) (.lit 10), []) := rfl

theorem test_decode_not : decode [14, 32768, 32775] = .ok (.not (.reg 0) (.reg 7), []) := rfl

theorem test_decode_rmem : decode [15, 32770, 32769] = .ok (.rmem (.reg 2) (.reg 1), []) := rfl

theorem test_decode_wmem : decode [16, 32769, 7] = .ok (.wmem (.reg 1) (.lit 7), []) := rfl

theorem test_decode_call : decode [17, 20] = .ok (.call (.lit 20), []) := rfl

theorem test_decode_ret : decode [18] = .ok (.ret, []) := rfl

theorem test_decode_out : decode [19, 65535] = .ok (.out (.high 65535), []) := rfl

theorem test_decode_in : decode [20, 300] = .ok (.input (.cell 300), []) := rfl

theorem test_decode_noop : decode [21] = .ok (.noop, []) := rfl

theorem test_decode_rejects : decode [22] = .error (.invalidOpcode 22) ∧ decode [32768] = .error (.invalidOpcode 32768) ∧
    decode [9, 0, 0] = .error (.truncated 9) ∧ decode [] = .error .noWord := ⟨rfl, rfl, rfl, rfl⟩

/-- The numbering of spec/opcode_table.json: `add R0 40 99`, E6's image. -/
theorem test_decode_table_word :
    decodeTableWord 64 (9 + 32768 * 2 ^ 16 + 40 * 2 ^ 32 + 99 * 2 ^ 48) = some (.add (.reg 0) (.lit 40) (.lit 99)) ∧
    decodeTableWord 16 20 = some (.input (.cell 0)) ∧ decodeTableWord 16 22 = none := by decide

/-! ### Single steps -/

/-- V1, V6. -/
theorem test_halt : see status (tiny [0]) = some (.halted, .none, 0, 1, 0) := by decide

/-- V2. -/
theorem test_noop : see status (tiny [21]) = some (.running, .none, 0, 1, 0) := by decide

/-- V7. -/
theorem test_noop_then_past_memory : see status (tinyAt 32767 [21]) = some (.running, .none, 0, 32768, 32767) ∧
    see status { State.reset with pc := 32768 } = some (.faulted, .addressRange, 32768, 32768, 32768) := by decide

/-- V3, V5. -/
theorem test_invalid_opcode : see status (tiny [22]) = some (.faulted, .invalidOpcode, 22, 1, 0) ∧
    see status (tiny [32768]) = some (.faulted, .invalidOpcode, 32768, 1, 0) := by decide

/-- V8. -/
theorem test_operand_past_memory : see status (tinyAt 32767 [1]) = some (.faulted, .addressRange, 32768, 32768, 32767) := by decide

/-- V12. -/
theorem test_set_register : see (fun t => (t.regs[7], t.pc)) (withReg 2 9 (tiny [1, 32775, 32770])) = some (9, 3) := by decide

/-- V15 and V11. -/
theorem test_set_address_before_value : see status (tiny [1, 40000, 40000]) = some (.faulted, .addressRange, 40000, 3, 0) ∧
    see (fun t => t.mem.read 200) (tiny [1, 200, 5]) = some 5 := by decide

/-- V17. -/
theorem test_push : see (fun t => (t.stack, t.pc)) (withReg 5 300 (tiny [2, 32773])) = some ([300], 2) := by decide

/-- 60_exceptions.md R202 and V18. -/
theorem test_push_full : see status { tiny [2, 9] with params := { Params.default with stackDepth := some 0 } } =
      some (.faulted, .stackOverflow, 9, 2, 0) ∧
    see status (tiny [2, 40000]) = some (.faulted, .valueRange, 40000, 2, 0) := by decide

/-- V19. -/
theorem test_pop : see (fun t => (t.regs[4], t.stack)) { tiny [3, 32772] with stack := [8, 9] } = some (9, [8]) := by decide

/-- V21, V22. -/
theorem test_pop_removes_before_store : see status { tiny [3, 40000] with stack := [7] } = some (.faulted, .addressRange, 40000, 2, 0) ∧
    see (fun t => t.stack) { tiny [3, 40000] with stack := [7] } = some [] ∧
    see status (tiny [3, 40000]) = some (.faulted, .stackUnderflow, 0, 2, 0) := by decide

/-- V23, V26. -/
theorem test_rmem : see (fun t => t.regs[2]) (withReg 1 100 { tiny [15, 32770, 32769] with mem := [(0, 15), (1, 32770), (2, 32769), (100, 7)] }) = some 7 ∧
    see (fun t => t.regs[0]) (withReg 0 5 (tiny [15, 32768, 500])) = some 0 := by decide

/-- V24, V25. -/
theorem test_rmem_faults : see status (tiny [15, 32768, 1]) = some (.faulted, .valueRange, 32768, 3, 0) ∧
    see status (tiny [15, 32768, 40000]) = some (.faulted, .addressRange, 40000, 3, 0) := by decide

/-- V27. -/
theorem test_wmem_dereferences : see (fun t => (t.mem.read 100, t.regs[1])) (withReg 1 100 (tiny [16, 32769, 7])) = some (7, 100) := by decide

/-- V30. -/
theorem test_wmem_value_fault : see (fun t => (t.faultCode, t.faultInfo, t.mem.read 50)) (tiny [16, 50, 40000]) = some (.valueRange, 40000, 0) := by decide

/-- V31, V32. -/
theorem test_eq : see (fun t => t.regs[0]) (withReg 1 7 (tiny [4, 32768, 32769, 7])) = some 1 ∧
    see (fun t => t.regs[0]) (withReg 1 7 (tiny [4, 32768, 32769, 8])) = some 0 := by decide

/-- V34. -/
theorem test_eq_illegal_destination : see status (tiny [4, 40000, 1, 1]) = some (.faulted, .addressRange, 40000, 4, 0) := by decide

/-- V36, V37, V38. -/
theorem test_gt : see (fun t => t.regs[0]) (tiny [5, 32768, 5, 5]) = some 0 ∧
    see (fun t => t.regs[0]) (tiny [5, 32768, 32767, 0]) = some 1 ∧
    see (fun t => t.regs[0]) (tiny [5, 32768, 32776, 32767]) = some 1 := by decide

/-- V39, V42. -/
theorem test_add_wraps : see (fun t => t.regs[0]) (tiny [9, 32768, 32758, 15]) = some 5 ∧
    see (fun t => t.regs[0]) (tiny [9, 32768, 40000, 0]) = some 7232 := by decide

/-- V9. -/
theorem test_add_reads_before_write : see (fun t => t.regs[0]) (withReg 0 3 (tiny [9, 32768, 32768, 32768])) = some 6 := by decide

/-- V44, V46. -/
theorem test_mult : see (fun t => t.regs[0]) (tiny [10, 32768, 32767, 32767]) = some 1 ∧
    see (fun t => t.regs[0]) (tiny [10, 32768, 65535, 65535]) = some 1 := by decide

/-- V49, V52, V53. -/
theorem test_mod : see (fun t => t.regs[0]) (tiny [11, 32768, 3, 10]) = some 3 ∧
    see (fun t => t.regs[0]) (tiny [11, 32768, 40000, 7]) = some 2 ∧
    see status (tiny [11, 32768, 40000, 50000]) = some (.faulted, .valueRange, 40000, 4, 0) := by decide

/-- V51. -/
theorem test_mod_by_zero_first : see status (tiny [11, 40000, 5, 0]) = some (.faulted, .divideByZero, 5, 4, 0) := by decide

/-- V54, V55, V56. -/
theorem test_and : see (fun t => t.regs[0]) (tiny [12, 32768, 12, 10]) = some 8 ∧
    see (fun t => t.regs[0]) (tiny [12, 32768, 40000, 32767]) = some 7232 ∧
    see status (tiny [12, 32768, 40000, 40000]) = some (.faulted, .valueRange, 40000, 4, 0) := by decide

/-- V57, V58. -/
theorem test_or : see (fun t => t.regs[0]) (tiny [13, 32768, 12, 10]) = some 14 ∧
    see status (tiny [13, 32768, 40000, 0]) = some (.faulted, .valueRange, 40000, 4, 0) := by decide

/-- V61, V62. -/
theorem test_not : see (fun t => t.regs[0]) (tiny [14, 32768, 21845]) = some 10922 ∧
    see status (tiny [14, 32768, 40000]) = some (.faulted, .valueRange, 58303, 3, 0) := by decide

/-- V64, V65. -/
theorem test_jmp : see (fun t => t.pc) (withReg 0 300 (tiny [6, 32768])) = some 300 ∧
    see status (tiny [6, 40000]) = some (.running, .none, 0, 40000, 0) := by decide

/-- V67, V68. -/
theorem test_jt : see (fun t => t.pc) (withReg 0 2 (tinyAt 9 [7, 32768, 3])) = some 3 ∧
    see (fun t => t.pc) (tinyAt 9 [7, 32768, 3]) = some 12 := by decide

/-- V71, V72. -/
theorem test_jf : see (fun t => t.pc) (tinyAt 9 [8, 32768, 3]) = some 3 ∧
    see (fun t => t.pc) (withReg 0 5 (tinyAt 9 [8, 32768, 3])) = some 12 := by decide

/-- V73. -/
theorem test_call : see (fun t => (t.stack, t.pc)) { tinyAt 8 [17, 20] with stack := [9] } = some ([9, 10], 20) := by decide

/-- V75. -/
theorem test_call_at_the_top : see status (tinyAt 32766 [17, 0]) = some (.faulted, .valueRange, 32768, 32768, 32766) ∧
    see (fun t => t.stack) (tinyAt 32766 [17, 0]) = some [] := by decide

/-- V76. -/
theorem test_ret : see (fun t => (t.pc, t.stack)) { tiny [18] with stack := [9, 10] } = some (10, [9]) := by decide

/-- V77, V78. -/
theorem test_ret_empty : see status (tinyAt 15 [18]) = some (.halted, .none, 0, 16, 15) ∧
    see status { tinyAt 15 [18] with params := { Params.default with retEmptyPolicy := .fault } } =
      some (.faulted, .stackUnderflow, 0, 16, 15) := by decide

/-- V80, V81. -/
theorem test_out : see (fun t => (t.output, t.pc)) (withReg 2 65 (tiny [19, 32770])) = some ([65], 2) ∧
    see (fun t => t.output) (tiny [19, 40000]) = some [40000] := by decide

/-- V82, V86. -/
theorem test_in : see (fun t => (t.regs[0], t.input, t.pc)) { tiny [20, 32768] with input := [104, 105, 10] } = some (104, [105, 10], 2) ∧
    see (fun t => t.mem.read 300) { tiny [20, 300] with input := [88] } = some 88 := by decide

/-- V83. -/
theorem test_in_without_code : step (tinyAt 7 [20, 32768]) = .fault .waitingForInput ∧
    (hostEvent .noCode (tinyAt 7 [20, 32768])).inWait = true := ⟨rfl, by decide⟩

/-- P5: the step that reaches an `in` with no code shows the wait, and an offered code ends it. -/
theorem test_in_wait_flag : see (fun t => (t.runState, t.inWait, t.pc, t.ia)) (tiny [6, 3, 0, 20]) = some (.running, true, 3, 0) ∧
    see (fun t => (hostEvent (.offer 5) t).inWait) (tiny [6, 3, 0, 20]) = some false := by decide

/-- V84. -/
theorem test_in_consumes_before_store : see (fun t => (t.faultCode, t.input)) { tiny [20, 40000] with input := [65, 66] } = some (.addressRange, [66]) := by decide

/-! ### Ports, image and the host's names -/

/-- E6's image bytes and words (20_memory.md R58). -/
theorem test_image_words : imageWords [0x09, 0x00, 0x00, 0x80, 0x28, 0x00, 0x63, 0x00] = some [9, 32768, 40, 99] ∧
    imageWords [0x09] = none := by decide

/-- The byte view of a cell is the image's little-endian order (20_memory.md R58). -/
theorem test_image_cells : imageCells [(1, 0x8000), (3, 0x0163)] = [(3, 0x80), (6, 0x63), (7, 0x01)] := by decide

/-- A write of 0 removes the cell, and equal memories are equal lists (20_memory.md R52). -/
theorem test_write_zero_removes :
    Memory.write [(1, 5), (3, 6)] 3 0 = [(1, 5)] ∧ Memory.write [(1, 5), (3, 6)] 2 7 = [(1, 5), (2, 7), (3, 6)] := by decide

/-- The next step runs a word placed for it, at the last cell too. -/
theorem test_with_fetch_word : see status (State.reset.withFetchWord 16 18) = some (.halted, .none, 0, 1, 0) ∧
    see status (State.withFetchWord { State.reset with pc := 32767 } 16 21) = some (.running, .none, 0, 32768, 32767) ∧
    see (fun t => (t.pc, t.input)) (State.reset.withFetchWord 32 (20 + 32768 * 2 ^ 16)) = some (2, []) := by decide

theorem test_no_step_in_reset : step { State.reset with runState := .reset } = .fault .heldInReset := rfl

/-! ### Witnesses: the hypotheses of each statement are met, at the boundaries of its clauses -/

/-- Any words of an instruction's length stand at the pc of `tiny`: meets `CodeAt` in every `RunsAs`. -/
theorem witness_CodeAt (ws : List Word) (h : ws.length ≤ 4) : CodeAt (tiny ws) ws := by
  refine ⟨rfl, by simp [tiny, State.reset, placeAtPc]; omega, fun k hk => ?_⟩
  simp only [tiny, placeAtPc, State.reset, BitVec.toNat_zero, Nat.zero_add, BitVec.ofNat_eq_ofNat]
  rw [read_placeWords, dif_pos (by omega)]
  rfl

/-- The last places an instruction of one word and of four words can stand. -/
theorem witness_CodeAt_top : CodeAt (tinyAt 32767 [21]) [21] ∧ CodeAt (tinyAt 32764 [9, 1, 2, 3]) [9, 1, 2, 3] :=
  ⟨⟨rfl, by decide, by decide⟩, ⟨rfl, by decide, by decide⟩⟩

/-- Well-formed forms of every class, for `DecodeReadsBackEncode`, `StepRunsDecodedInstruction` and each `RunsAs`. -/
theorem witness_wf : Instr.wf (.set (.illegal 32776) (.high 32776)) = true ∧ Instr.wf (.push (.high 65535)) = true ∧
    Instr.wf (.pop (.cell 32767)) = true ∧ Instr.wf (.eq (.reg 7) (.reg 0) (.lit 0)) = true ∧
    Instr.wf (.wmem (.reg 0) (.high 32776)) = true ∧ Instr.wf (.jt (.lit 0) (.high 40000)) = true ∧
    Instr.wf (.call (.reg 1)) = true ∧ Instr.wf (.out (.lit 42)) = true ∧ Instr.wf (.input (.reg 0)) = true ∧
    Instr.wf (.rmem (.reg 0) (.lit 32767)) = true ∧ Instr.wf (.not (.cell 0) (.lit 0)) = true ∧
    Instr.wf (.jmp (.high 65535)) = true ∧ Instr.wf (.mod (.illegal 65535) (.lit 5) (.lit 0)) = true := by decide

/-- The image of E6, booted from a running state. -/
theorem witness_BootGivesInitialState : State.reset.runState ≠ .reset ∧
    imageWords [0x09, 0x00, 0x00, 0x80, 0x28, 0x00, 0x63, 0x00] = some [9, 32768, 40, 99] ∧
    ∃ t, boot [0x09, 0x00, 0x00, 0x80, 0x28, 0x00, 0x63, 0x00] State.reset = .ok t := ⟨by decide, by decide, ⟨_, rfl⟩⟩

/-- One byte, 65538 bytes and 65536 bytes: the three clauses of `ImageLoadsOrIsRefused`. -/
theorem witness_ImageLoadsOrIsRefused : [(0 : BitVec 8)].length % 2 = 1 ∧
    ((List.replicate 65538 (0 : BitVec 8)).length % 2 = 0 ∧ 65536 < (List.replicate 65538 (0 : BitVec 8)).length) ∧
    ((List.replicate 65536 (0 : BitVec 8)).length % 2 = 0 ∧ (List.replicate 65536 (0 : BitVec 8)).length ≤ 65536) := by
  refine ⟨rfl, ?_, ?_⟩ <;> rw [List.length_replicate] <;> decide

/-- A running state and one in reset: `ResetClearsTheBlock`, `LoadPortWritesRawOnlyInReset`, `NoStepUnlessRunning`. -/
theorem witness_run_states : State.reset.runState = .running ∧ State.reset.runState ≠ .reset ∧
    ({ State.reset with runState := .reset } : State).runState = .reset ∧
    ({ State.reset with runState := .halted } : State).runState = .halted ∧
    ({ State.reset with runState := .faulted } : State).runState = .faulted := by decide

/-- `PortsShowStatus`: a state that does not wait. -/
theorem witness_PortsShowStatus : State.reset.inWait = false := rfl

/-- `TerminalStatesLeftOnlyByReset`: both terminal states, and every event but the assertion of reset. -/
theorem witness_TerminalStatesLeftOnlyByReset : State.terminal { State.reset with runState := .halted } ∧
    State.terminal { State.reset with runState := .faulted } ∧ HostEvent.load 0 0 ≠ .assertReset ∧
    HostEvent.releaseReset ≠ .assertReset ∧ HostEvent.offer 0 ≠ .assertReset ∧ HostEvent.offerLine [] ≠ .assertReset ∧
    HostEvent.noCode ≠ .assertReset := by decide

theorem witness_EncodeReadsBackDecode : decode [2, 40000, 7] = .ok (.push (.high 40000), [7]) := rfl

/-- The boundaries of the operand classes: `DestinationIsRawAddress` and `ValueOperandIsDereferenced`. -/
theorem witness_word_classes : (32767 : Word).toNat ≤ 32767 ∧ (32768 : Word).toNat = 32768 + (0 : Reg).val ∧
    (32775 : Word).toNat = 32768 + (7 : Reg).val ∧ 32775 < (32776 : Word).toNat ∧
    destOf (.pop (.illegal 32776)) = some (.illegal 32776) := by decide

theorem witness_LengthFollowsFromOpcode :
    (encode (.add (.reg 0) (.lit 1) (.high 40000))).head? = (encode (.add (.cell 5) (.lit 2) (.reg 3))).head? := rfl

/-- The least and the greatest illegal opcode, at the first and the last cell. -/
theorem witness_InvalidOpcodeRaises : (tiny [22]).runState = .running ∧ (tiny [22]).pc.toNat ≤ 32767 ∧
    21 < ((tiny [22]).mem.read (tiny [22]).pc.toNat).toNat ∧ (tinyAt 32767 [65535]).pc.toNat ≤ 32767 ∧
    21 < ((tinyAt 32767 [65535]).mem.read (tinyAt 32767 [65535]).pc.toNat).toNat := by decide

/-- The pc at 32768, and operands that just run past memory: `FetchPastMemoryFaults` and each `FetchFaults`. -/
theorem witness_FetchPastMemoryFaults : 32767 < ({ State.reset with pc := 32768 } : State).pc.toNat ∧
    (tinyAt 32767 [2]).runState = .running ∧ (tinyAt 32767 [2]).pc.toNat ≤ 32767 ∧
    arity ((tinyAt 32767 [2]).mem.read (tinyAt 32767 [2]).pc.toNat) = some 1 ∧
    32767 < (tinyAt 32767 [2]).pc.toNat + 1 ∧
    arity ((tinyAt 32765 [9]).mem.read (tinyAt 32765 [9]).pc.toNat) = some 3 ∧
    32767 < (tinyAt 32765 [9]).pc.toNat + 3 := by decide

theorem witness_NonBranchGoesOn : (∃ t, step (tiny [21]) = .next t ∧ t.runState = .running) ∧
    ((tiny [21]).mem.read (tiny [21]).pc.toNat).toNat ∉ [6, 7, 8, 17, 18] := ⟨⟨_, rfl, rfl⟩, by decide⟩

/-- `RunningBlockStepsUnlessWaiting`: both sides of its conditions, the last place an `in` can wait included. -/
theorem witness_waitsAtIn : waitsAtIn (tinyAt 32766 [20, 0]) ∧ ¬ waitsAtIn (tinyAt 32767 [20]) ∧
    ¬ waitsAtIn State.reset ∧ ¬ waitsAtIn { tiny [20, 0] with input := [1] } ∧
    ((∃ a, Instr.input (.reg 0) = .input a) → ({ tiny [20, 0] with input := [1] } : State).input ≠ []) :=
  ⟨by decide, by decide, by decide, by decide, fun _ => by decide⟩

/-- Both conditions of `jt` and `jf`, an out-of-range literal among the true ones, and `mod`'s two divisors. -/
theorem witness_conditions : (valueOf (.lit 0) State.reset).toNat = 0 ∧ (valueOf (.lit 1) State.reset).toNat ≠ 0 ∧
    (valueOf (.high 65535) State.reset).toNat ≠ 0 := by decide

/-- `CallPushesReturnAddress` and `RetUndoesCall`: the return addresses 32768 and 32767, a full and an unbounded stack. -/
theorem witness_CallPushesReturnAddress : 32767 < ({ State.reset with pc := 32768 } : State).pc.toNat ∧
    ({ State.reset with pc := 32767 } : State).pc.toNat ≤ 32767 ∧
    ({ State.reset with params := { Params.default with stackDepth := some 0 } } : State).params.stackDepth = some 0 ∧
    State.reset.params.stackDepth ≠ some State.reset.stack.length := by decide

theorem witness_RetUndoesCall : ∃ t, exec (.call (.lit 20)) { State.reset with pc := 32767 } = .next t ∧ t.stack = [32767] :=
  ⟨_, rfl, rfl⟩

/-- `RetPopsReturnAddress` and `PopStoresTop`: a stack with a top, and the empty stack under both policies. -/
theorem witness_RetPopsReturnAddress : ({ State.reset with stack := [9, 10] } : State).stack = [9] ++ [10] ∧
    State.reset.stack = [] ∧ State.reset.params.retEmptyPolicy = .halt ∧
    ({ State.reset with params := { Params.default with retEmptyPolicy := .fault } } : State).params.retEmptyPolicy = .fault := by decide

/-- The boundaries of every checked store and push: addresses 32775 and 32776, values 32767 and 32776. -/
theorem witness_store_boundaries : (Dest.reg 7).addr.toNat ≤ 32775 ∧ 32775 < (Dest.illegal 32776).addr.toNat ∧
    (valueOf (.lit 32767) State.reset).toNat ≤ 32767 ∧ 32767 < (valueOf (.high 32776) State.reset).toNat ∧
    (valueOf (.lit 32767) State.reset).toNat ≤ 32775 ∧ 32775 < (valueOf (.high 32776) State.reset).toNat ∧
    (32775 : Word).toNat ≤ 32775 ∧ 32767 < (32768 : Word).toNat := by decide

theorem witness_WmemWritesMemory : (Operand.reg 0).wf = true ∧ ∃ t, exec (.wmem (.reg 0) (.lit 7)) State.reset = .next t :=
  ⟨rfl, _, rfl⟩

/-- `InStoresReceivedCode`, `InIsNotEnabledWithoutInput` and `WaitingInCompletesOnOffer`. -/
theorem witness_in : ({ tiny [20, 32768] with input := [104] } : State).input = 104 :: [] ∧
    CodeAt (tiny [20, 32768]) [20, 32768] ∧ (tiny [20, 32768]).input = [] := ⟨rfl, witness_CodeAt _ (by decide), rfl⟩

/-- `StoreIsSeenByNextFetch`: a `wmem`, a destination write, an `in` and a `pop`, the last cell and the greatest word. -/
theorem witness_StoreIsSeenByNextFetch :
    (storeOf (.wmem (.lit 5) (.lit 0)) State.reset = some (5, 0) ∧
      ∃ t, exec (.wmem (.lit 5) (.lit 0)) State.reset = .next t) ∧
    (storeOf (.add (.cell 32767) (.lit 32766) (.lit 1)) State.reset = some (32767, 32767) ∧
      ∃ t, exec (.add (.cell 32767) (.lit 32766) (.lit 1)) State.reset = .next t) ∧
    (storeOf (.input (.cell 9)) { State.reset with input := [88] } = some (9, 88) ∧
      ∃ t, exec (.input (.cell 9)) { State.reset with input := [88] } = .next t) ∧
    (storeOf (.pop (.cell 9)) { State.reset with stack := [7] } = some (9, 7) ∧
      ∃ t, exec (.pop (.cell 9)) { State.reset with stack := [7] } = .next t) :=
  ⟨⟨rfl, _, rfl⟩, ⟨rfl, _, rfl⟩, ⟨rfl, _, rfl⟩, ⟨rfl, _, rfl⟩⟩

theorem witness_OnlyDestinationRegisterChanges : Instr.wf (.set (.reg 0) (.lit 1)) = true ∧
    destOf (.set (.reg 0) (.lit 1)) ≠ some (.reg 1) ∧ ∃ t, exec (.set (.reg 0) (.lit 1)) State.reset = .next t :=
  ⟨by decide, by decide, _, rfl⟩

theorem witness_StepWritesDataWords : see (fun t => t.peek 200 ≠ (tiny [1, 200, 5]).peek 200) (tiny [1, 200, 5]) = some True := by
  have : (after (tiny [1, 200, 5])).map (fun t => t.peek 200) = some 5 := by decide
  cases h : after (tiny [1, 200, 5]) with
  | none => rw [h] at this; cases this
  | some t =>
    rw [h] at this
    simp only [Option.map_some, Option.some.injEq] at this
    simp only [see, h, Option.map_some, this, show (tiny [1, 200, 5]).peek 200 = 0 by decide]
    simp

/-- Steps that push, pop, emit and consume: the statements on the stack, the streams, IA and the parameters. -/
theorem witness_steps : (∃ t, step (tiny [2, 9]) = .next t ∧ t.stack = [9]) ∧
    (∃ t, step { tiny [3, 32768] with stack := [9] } = .next t ∧ t.stack = []) ∧
    (∃ t, step (tiny [19, 42]) = .next t ∧ t.output = [42]) ∧
    (∃ t, step { tiny [20, 32768] with input := [1] } = .next t ∧ t.input = []) :=
  ⟨⟨_, rfl, rfl⟩, ⟨_, rfl, rfl⟩, ⟨_, rfl, rfl⟩, ⟨_, rfl, rfl⟩⟩

/-- `RunEndsOnlyByHaltOrFault` and `FaultingStepWritesNothing`: a halting and a faulting step. -/
theorem witness_ends : (∃ t, step (tiny [0]) = .next t ∧ t.runState = .halted) ∧
    (∃ t, step (tiny [22]) = .next t ∧ t.runState = .faulted) := ⟨⟨_, rfl, rfl⟩, ⟨_, rfl, rfl⟩⟩

/-- `StepKeepsInvariant`, `HostEventKeepsInvariant`, `ReachableStatesHaveInvariant`: the reset state, which steps. -/
theorem witness_StepKeepsInvariant : State.reset.Inv ∧ (∃ t, step State.reset = .next t) ∧ Reachable State.reset ∧
    State.reset.runState = .running := by
  refine ⟨⟨reset_wf, by decide, by decide, by decide, by decide, fun d h => ?_, .inl (by decide), by decide⟩,
    ⟨_, rfl⟩, .reset Params.default, rfl⟩
  cases h

/-- A program of one `in`, loaded at reset, released and found without a code. -/
def waiting : State :=
  hostEvent .noCode (hostEvent .releaseReset (hostEvent (.load 0 20) (hostEvent .assertReset State.reset)))

/-- A state that waits is reached and meets the invariant: its last clause is not empty. -/
theorem witness_waiting_invariant : Reachable waiting ∧ waitsAtIn waiting ∧ waiting.inWait = true ∧ waiting.Inv := by
  refine ⟨.host _ (.host _ (.host _ (.host _ (.reset Params.default)))), by decide, by decide,
    by decide, by decide, by decide, by decide, by decide, fun d h => ?_, .inl (by decide), fun _ => by decide⟩
  cases h

end Sys2Proof.Tests
end

section
/-! The destination operand: the three ranges of its raw word, and its place in the encoding (30_encoding.md R74, R75). -/

namespace Sys2Proof.Machine

/-- The register a destination word in [32768, 32775] names, by its number (30_encoding.md R72, R74). -/
theorem regOfWord_val {w : Word} (h : 32768 ≤ w.toNat) (h' : w.toNat ≤ 32775) :
    32768 + (regOfWord w).val = w.toNat := by
  rw [← word_reg_toNat, reg_word_of_range h h']

/-- A destination is the first operand: the row of 30_encoding.md R75 puts its address just after the opcode word. -/
theorem encode_one_of_destOf {i : Instr} {d : Dest} (h : destOf i = some d) : (encode i)[1]? = some d.addr := by
  cases i with
  | set a _ | pop a | eq a _ _ | gt a _ _ | add a _ _ | mult a _ _ | mod a _ _ | and a _ _ | or a _ _ | not a _
  | rmem a _ | input a =>
    obtain rfl : a = d := Option.some.inj h
    rfl
  | halt | push | jmp | jt | jf | wmem | call | ret | out | noop => cases h

/-- Settles O10: the ranges of R74 are the cases of `Dest.ofWord`, and the store's first check faults on an illegal
address. -/
theorem destinationIsRawAddress : Obligations.DestinationIsRawAddress := by
  unfold Obligations.DestinationIsRawAddress
  refine ⟨fun w => ?_, fun _ _ => encode_one_of_destOf⟩
  have haddr : (Dest.ofWord w).addr = w := (addr_ofWord w).1
  refine ⟨haddr, fun hcell => ?_, fun hlo hhi => ?_, fun hill => ⟨dest_ofWord_illegal hill, fun v s => ?_⟩⟩
  · exact ⟨_, dest_ofWord_cell hcell, toNat_setWidth_15 hcell⟩
  · exact ⟨_, dest_ofWord_reg hlo hhi, regOfWord_val hlo hhi⟩
  · rw [haddr]
    exact storeSet_illegal hill v s

end Sys2Proof.Machine
end

section
/-! The Dispatcher's step: the instruction whose words stand at the pc runs, an opcode word above 21 is rejected, and
`halt` and `noop` (40_dispatch.md R91, R96 to R98). -/

namespace Sys2Proof.Machine

/-- A well-formed instruction that the decoder reads back runs wherever its words stand at the pc
(40_dispatch.md R91). -/
theorem runsAs_encode {i : Instr} (hback : Laws.ReadBack.Statement i) (hrow : Laws.EncodingRow.Statement i)
    (hwf : i.wf = true) : RunsAs i (encode i) := by
  refine ⟨rfl, fun s hcode => ?_⟩
  have hfetch := fetchInstr_of_code (s := latchIa s) hback hrow hwf hcode.inMemory hcode.wordsFrom_eq
  rw [step_done hcode.running hfetch, latchIa_pc, jump_latchIa]

/-- An illegal opcode ends the step just after the opcode fetch, with IA = A and the pc at A + 1
(40_dispatch.md R98). -/
theorem step_invalid {s : State} (hrun : s.runState = .running) (hpc : s.pc.toNat ≤ 32767)
    (hop : 21 < (s.mem.read s.pc.toNat).toNat) :
    step s = .next (settleWait (raise .invalidOpcode (s.mem.read s.pc.toNat) (jump (s.pc + 1) (latchIa s)))) :=
  step_stop hrun (fetchInstr_invalid hpc ((arity_none_iff _).mpr hop))

/-- A block that a fault has stopped does not wait: IN_WAIT falls with it (10_state.md R31). -/
theorem settleWait_raise (e : FaultCode) (info : Word) (s : State) :
    settleWait (raise e info s) = { raise e info s with inWait := false } :=
  settleWait_not_running (by simp)

/-- Settles O14: the fetch rejects the opcode before any operand word, and the faulted block does not wait. -/
theorem invalidOpcodeRaises : Obligations.InvalidOpcodeRaises := by
  unfold Obligations.InvalidOpcodeRaises
  intro s hrun hpc hop
  rw [step_invalid hrun hpc hop, settleWait_raise]
  rfl

theorem exec_halt (s : State) : exec .halt s = .next { s with runState := .halted } := rfl

theorem exec_noop (s : State) : exec .noop s = .next s := rfl

theorem runsAs_halt : RunsAs .halt [0] := runsAs_encode Laws.ReadBack.halt Laws.EncodingRow.halt rfl

theorem runsAs_noop : RunsAs .noop [21] := runsAs_encode Laws.ReadBack.noop Laws.EncodingRow.noop rfl

/-- Settles O19: `halt` is its one word and writes RUNSTATE alone. -/
theorem haltEndsRun : Obligations.HaltEndsRun := by
  unfold Obligations.HaltEndsRun
  exact ⟨runsAs_halt, exec_halt⟩

/-- Settles O20: `noop` is its one word and leaves the state its fetch made, where IN_WAIT is then settled. -/
theorem noopOnlyAdvances : Obligations.NoopOnlyAdvances := by
  unfold Obligations.NoopOnlyAdvances
  refine ⟨runsAs_noop, exec_noop, fun s hcode => ?_⟩
  obtain ⟨-, hstep⟩ := runsAs_noop
  rw [hstep s hcode, exec_noop, settle_next]
  rfl

end Sys2Proof.Machine
end

section
/-! Data movement: `StoreSet` and `Push` outcome by outcome, and the instructions that end in one of them
(41_data_movement.md; 20_memory.md R55, 10_state.md R25). -/

namespace Sys2Proof.Machine

/-- `StoreSet` meets its own contract: both checks in order, then the store (20_memory.md R55). -/
theorem storesChecked_storeSet (a v : Word) (s : State) :
    StoresChecked s (storeSet a v s).outcome a v.toNat := by
  refine ⟨fun ha => ?_, fun ha hv => ?_, fun ha hv => ?_⟩
  · rw [storeSet_illegal ha, outcome_stop]
  · rw [storeSet_value ha hv, outcome_stop, BitVec.ofNat_toNat, BitVec.setWidth_eq]
  · obtain ⟨t, hstore, hstored⟩ := storeSet_legal ha hv s
    exact ⟨t, by rw [hstore, outcome_done], hstored⟩

/-- Only a register's own address reaches a register (20_memory.md R56). -/
theorem storeSet_outcome_regs {a v : Word} {s t : State} (ha : a.toNat ≤ 32767 ∨ 32776 ≤ a.toNat)
    (h : (storeSet a v s).outcome = .next t) : t.regs = s.regs := by
  rcases storeSet_outcome_cases h with ⟨-, rfl⟩ | ⟨-, rfl⟩ | ⟨-, -, rfl⟩ | ⟨hlo, hhi, -, -⟩
  · exact raise_regs ..
  · exact raise_regs ..
  · exact writeCell_regs ..
  · omega

theorem push_value {v : Word} (hv : 32767 < v.toNat) (s : State) : push v s = .stop (raise .valueRange v s) :=
  if_pos hv

theorem push_full {v : Word} {s : State} (hv : v.toNat ≤ 32767) (hfull : s.params.stackDepth = some s.stack.length) :
    push v s = .stop (raise .stackOverflow v s) :=
  (if_neg (by simp only [Config.wordMax]; omega)).trans (if_pos ((stackFull_iff s).mpr hfull))

theorem push_room {v : Word} {s : State} (hv : v.toNat ≤ 32767) (hroom : s.params.stackDepth ≠ some s.stack.length) :
    push v s = .done () (setStack (s.stack ++ [v.setWidth 15]) s) :=
  (if_neg (by simp only [Config.wordMax]; omega)).trans (if_neg (mt (stackFull_iff s).mp hroom))

theorem exec_set (a : Dest) (b : Operand) (s : State) :
    exec (.set a b) s = (storeSet a.addr (valueOf b s) s).outcome := rfl

theorem exec_push (a : Operand) (s : State) : exec (.push a) s = (push (valueOf a s) s).outcome := rfl

theorem exec_wmem (a b : Operand) (s : State) :
    exec (.wmem a b) s = (storeSet (valueOf a s) (valueOf b s) s).outcome := rfl

/-- Settles O27: `set` is `StoreSet` at the raw address of its destination. -/
theorem setStoresValue : Obligations.SetStoresValue := by
  unfold Obligations.SetStoresValue
  refine fun a b => ⟨runsAs_encode (Laws.ReadBack.set a b) (Laws.EncodingRow.set a b), fun s => ?_⟩
  rw [exec_set]
  exact storesChecked_storeSet ..

/-- Settles O28: `push` is `Push` of its value, whose range check comes before the depth check. -/
theorem pushAppends : Obligations.PushAppends := by
  unfold Obligations.PushAppends
  refine fun a => ⟨runsAs_encode (Laws.ReadBack.push a) (Laws.EncodingRow.push a), fun s => ?_⟩
  rw [exec_push]
  refine ⟨fun hv => ?_, fun hv hfull => ?_, fun hv hroom => ?_⟩
  · rw [push_value hv, outcome_stop]
  · rw [push_full hv hfull, outcome_stop]
  · rw [push_room hv hroom, outcome_done, setStack]

/-- Settles O31: `wmem` is `StoreSet` at the value of its first operand, which is never a register's address. -/
theorem wmemWritesMemory : Obligations.WmemWritesMemory := by
  unfold Obligations.WmemWritesMemory
  refine fun a b => ⟨runsAs_encode (Laws.ReadBack.wmem a b) (Laws.EncodingRow.wmem a b), fun s => ?_⟩
  rw [exec_wmem]
  exact ⟨storesChecked_storeSet .., fun hwf _ => storeSet_outcome_regs (valueOf_range hwf s)⟩

end Sys2Proof.Machine
end

section
/-! The ALU: each result as the number it stands for, and the instructions that end in `StoreSet` of it
(42_alu.md R130 to R134, R136, R137). -/

namespace Sys2Proof.Machine

/-! ### The results as numbers -/

theorem eqResult_toNat (b c : Word) : (eqResult b c).toNat = if b.toNat = c.toNat then 1 else 0 := by
  unfold eqResult
  split <;> rfl

theorem gtResult_toNat (b c : Word) : (gtResult b c).toNat = if b.toNat > c.toNat then 1 else 0 := by
  unfold gtResult
  split <;> rfl

/-- A number reduced modulo 32768 fits a word, so the word loses nothing of it (42_alu.md R130). -/
theorem word_mod_toNat (n : Nat) : (BitVec.ofNat 16 (n % 32768)).toNat = n % 32768 := by
  rw [BitVec.toNat_ofNat]
  omega

theorem addResult_toNat (b c : Word) : (addResult b c).toNat = (b.toNat + c.toNat) % 32768 := word_mod_toNat _

theorem multResult_toNat (b c : Word) : (multResult b c).toNat = (b.toNat * c.toNat) % 32768 := word_mod_toNat _

theorem andResult_toNat (b c : Word) : (andResult b c).toNat = b.toNat &&& c.toNat := BitVec.toNat_and ..

theorem orResult_toNat (b c : Word) : (orResult b c).toNat = b.toNat ||| c.toNat := BitVec.toNat_or ..

theorem addResult_comm (b c : Word) : addResult b c = addResult c b := by
  rw [addResult, addResult, Nat.add_comm]

theorem multResult_comm (b c : Word) : multResult b c = multResult c b := by
  rw [multResult, multResult, Nat.mul_comm]

/-- A word is above every data word exactly when its bit 15 is set. -/
theorem word_high_iff_msb (w : Word) : 32767 < w.toNat ↔ w.msb = true := by
  rw [BitVec.msb_eq_decide, decide_eq_true_iff]
  rfl

theorem andResult_high_iff (b c : Word) :
    32767 < (andResult b c).toNat ↔ (32767 < b.toNat ∧ 32767 < c.toNat) := by
  rw [word_high_iff_msb, word_high_iff_msb, word_high_iff_msb, andResult, BitVec.msb_and, Bool.and_eq_true]

theorem orResult_high_iff (b c : Word) :
    32767 < (orResult b c).toNat ↔ (32767 < b.toNat ∨ 32767 < c.toNat) := by
  rw [word_high_iff_msb, word_high_iff_msb, word_high_iff_msb, orResult, BitVec.msb_or, Bool.or_eq_true]

/-! ### The instructions -/

theorem exec_eq (a : Dest) (b c : Operand) (s : State) :
    exec (.eq a b c) s = (storeSet a.addr (eqResult (valueOf b s) (valueOf c s)) s).outcome := rfl

theorem exec_gt (a : Dest) (b c : Operand) (s : State) :
    exec (.gt a b c) s = (storeSet a.addr (gtResult (valueOf b s) (valueOf c s)) s).outcome := rfl

theorem exec_add (a : Dest) (b c : Operand) (s : State) :
    exec (.add a b c) s = (storeSet a.addr (addResult (valueOf b s) (valueOf c s)) s).outcome := rfl

theorem exec_mult (a : Dest) (b c : Operand) (s : State) :
    exec (.mult a b c) s = (storeSet a.addr (multResult (valueOf b s) (valueOf c s)) s).outcome := rfl

theorem exec_and (a : Dest) (b c : Operand) (s : State) :
    exec (.and a b c) s = (storeSet a.addr (andResult (valueOf b s) (valueOf c s)) s).outcome := rfl

theorem exec_or (a : Dest) (b c : Operand) (s : State) :
    exec (.or a b c) s = (storeSet a.addr (orResult (valueOf b s) (valueOf c s)) s).outcome := rfl

/-- An instruction that ends in `StoreSet` of a data word never raises ValueRangeError (20_memory.md R55). -/
theorem storesWord_of_storeSet {i : Instr} {a : Dest} {v : State → Word} {r : State → Nat}
    (hexec : ∀ s, exec i s = (storeSet a.addr (v s) s).outcome) (hv : ∀ s, (v s).toNat = r s)
    (hr : ∀ s, r s ≤ 32767) : StoresWord i a r := fun s => by
  have hchecked := storesChecked_storeSet a.addr (v s) s
  rw [← hexec, hv] at hchecked
  obtain ⟨hillegal, -, hlegal⟩ := hchecked
  exact ⟨hillegal, fun ha => hlegal ha (hr s)⟩

/-- The words 1 and 0 of a comparison are data words (42_alu.md R130). -/
theorem truthValue_le (p : Prop) [Decidable p] : (if p then 1 else 0) ≤ 32767 := by
  split <;> omega

theorem mod_le_wordMax (n : Nat) : n % 32768 ≤ 32767 := by omega

/-- Settles O32: `eq` stores 1 or 0, which no value check refuses. -/
theorem eqStoresComparison : Obligations.EqStoresComparison := by
  unfold Obligations.EqStoresComparison
  refine fun a b c => ⟨runsAs_encode (Laws.ReadBack.eq a b c) (Laws.EncodingRow.eq a b c), ?_⟩
  exact storesWord_of_storeSet (exec_eq a b c) (fun _ => eqResult_toNat ..) (fun _ => truthValue_le _)

/-- Settles O33: `gt` stores 1 or 0, which no value check refuses. -/
theorem gtStoresComparison : Obligations.GtStoresComparison := by
  unfold Obligations.GtStoresComparison
  refine fun a b c => ⟨runsAs_encode (Laws.ReadBack.gt a b c) (Laws.EncodingRow.gt a b c), ?_⟩
  exact storesWord_of_storeSet (exec_gt a b c) (fun _ => gtResult_toNat ..) (fun _ => truthValue_le _)

/-- Settles O34: the reduced sum is a data word, and the sum does not depend on the operands' order. -/
theorem addStoresSumModulo : Obligations.AddStoresSumModulo := by
  unfold Obligations.AddStoresSumModulo
  refine fun a b c => ⟨runsAs_encode (Laws.ReadBack.add a b c) (Laws.EncodingRow.add a b c), ?_, fun s => ?_⟩
  · exact storesWord_of_storeSet (exec_add a b c) (fun _ => addResult_toNat ..) (fun _ => mod_le_wordMax _)
  · rw [exec_add, exec_add, addResult_comm]

/-- Settles O35: the reduced product is a data word, and the product does not depend on the operands' order. -/
theorem multStoresProductModulo : Obligations.MultStoresProductModulo := by
  unfold Obligations.MultStoresProductModulo
  refine fun a b c => ⟨runsAs_encode (Laws.ReadBack.mult a b c) (Laws.EncodingRow.mult a b c), ?_, fun s => ?_⟩
  · exact storesWord_of_storeSet (exec_mult a b c) (fun _ => multResult_toNat ..) (fun _ => mod_le_wordMax _)
  · rw [exec_mult, exec_mult, multResult_comm]

/-- Settles O37: `and` is `StoreSet` of a word whose bit 15 is the AND of the operands' bits 15. -/
theorem andStoresBitwise : Obligations.AndStoresBitwise := by
  unfold Obligations.AndStoresBitwise
  refine fun a b c => ⟨runsAs_encode (Laws.ReadBack.and a b c) (Laws.EncodingRow.and a b c), fun s => ?_⟩
  rw [exec_and, ← andResult_toNat]
  exact ⟨storesChecked_storeSet .., andResult_high_iff ..⟩

/-- Settles O38: `or` is `StoreSet` of a word whose bit 15 is the OR of the operands' bits 15. -/
theorem orStoresBitwise : Obligations.OrStoresBitwise := by
  unfold Obligations.OrStoresBitwise
  refine fun a b c => ⟨runsAs_encode (Laws.ReadBack.or a b c) (Laws.EncodingRow.or a b c), fun s => ?_⟩
  rw [exec_or, ← orResult_toNat]
  exact ⟨storesChecked_storeSet .., orResult_high_iff ..⟩

end Sys2Proof.Machine
end

section
/-! Branches: what `jmp`, `jt` and `jf` do to the pc, and the fault of a target above 32767 at the next fetch
(43_control_transfer.md R150 to R153, 40_dispatch.md R92). -/

namespace Sys2Proof.Machine

/-- The opcode fetch from a pc above 32767 faults before any read, and the faulted block does not wait
(40_dispatch.md R92, 10_state.md R31). -/
theorem fetchFaults (t : State) : FetchFaults t := by
  intro hrun hpc
  rw [step_stop hrun (fetchInstr_past (s := latchIa t) hpc), settleWait_raise]
  rfl

/-- A branch condition is a test of the whole word against 0 (43_control_transfer.md R152, R153). -/
theorem condTrue_iff (w : Word) : condTrue w = true ↔ w.toNat ≠ 0 := by
  rw [condTrue, bne_iff_ne, Ne, ← BitVec.toNat_inj]
  rfl

theorem exec_jmp (a : Operand) (s : State) : exec (.jmp a) s = .next { s with pc := valueOf a s } := rfl

theorem exec_jt (a b : Operand) (s : State) :
    exec (.jt a b) s = .next (if condTrue (valueOf a s) then { s with pc := valueOf b s } else s) := rfl

theorem exec_jf (a b : Operand) (s : State) :
    exec (.jf a b) s = .next (if condTrue (valueOf a s) then s else { s with pc := valueOf b s }) := rfl

/-- Settles O21: `jmp` writes the pc alone, and the next fetch is what checks the target. -/
theorem jmpSetsPc : Obligations.JmpSetsPc := by
  unfold Obligations.JmpSetsPc
  exact fun a => ⟨runsAs_encode (Laws.ReadBack.jmp a) (Laws.EncodingRow.jmp a),
    fun s => ⟨exec_jmp a s, fetchFaults _⟩⟩

/-- Settles O22: a condition other than 0 takes the branch of `jt`, 0 leaves the state as the fetch made it. -/
theorem jtBranchesOnNonzero : Obligations.JtBranchesOnNonzero := by
  unfold Obligations.JtBranchesOnNonzero
  refine fun a b => ⟨runsAs_encode (Laws.ReadBack.jt a b) (Laws.EncodingRow.jt a b), fun s => ?_⟩
  rw [exec_jt]
  refine ⟨fun htaken => ⟨?_, fetchFaults _⟩, fun hzero => ?_⟩
  · rw [if_pos ((condTrue_iff _).mpr htaken)]
  · rw [if_neg (mt (condTrue_iff _).mp (not_not_intro hzero))]

/-- Settles O23: the condition 0 takes the branch of `jf`, any other leaves the state as the fetch made it. -/
theorem jfBranchesOnZero : Obligations.JfBranchesOnZero := by
  unfold Obligations.JfBranchesOnZero
  refine fun a b => ⟨runsAs_encode (Laws.ReadBack.jf a b) (Laws.EncodingRow.jf a b), fun s => ?_⟩
  rw [exec_jf]
  refine ⟨fun hzero => ⟨?_, fetchFaults _⟩, fun hnonzero => ?_⟩
  · rw [if_neg (mt (condTrue_iff _).mp (not_not_intro hzero))]
  · rw [if_pos ((condTrue_iff _).mpr hnonzero)]

end Sys2Proof.Machine
end

section
/-! Reset and boot: the load port fed with an image's words places them in memory and leaves the rest as reset left it
(70_reset_and_hazards.md R220 to R222, 20_memory.md R64). -/

namespace Sys2Proof.Machine

theorem loadPort_in_reset {s : State} (h : s.runState = .reset) (a : Value) (v : Word) :
    loadPort a v s = writeCell a.toNat v s := if_pos h

theorem releaseReset_in_reset {s : State} (h : s.runState = .reset) :
    releaseReset s = { s with runState := .running } := if_pos h

/-- In reset, words that fit ordinary memory are placed there and nothing else changes (20_memory.md R64). -/
theorem loadWords_in_reset {a : Nat} {ws : List Word} {s : State} (h : s.runState = .reset)
    (hfit : a + ws.length ≤ 32768) : loadWords a ws s = { s with mem := placeWords a ws s.mem } := by
  induction ws generalizing a s with
  | nil => rfl
  | cons w ws ih =>
    rw [List.length_cons] at hfit
    have ha : a < Config.memWords := by simp only [Config.memWords]; omega
    have haddr : (BitVec.ofNat 15 a).toNat = a := by rw [BitVec.toNat_ofNat]; exact Nat.mod_eq_of_lt ha
    have hwritten : (writeCell a w s).runState = .reset := (writeCell_runState s a w).trans h
    rw [loadWords, loadPort_in_reset h, haddr, ih hwritten (by omega), placeWords, if_pos ha]
    rfl

theorem loadImage_ok_iff {bytes : List (BitVec 8)} {ws : List Word} {s t : State} (h : imageWords bytes = some ws) :
    loadImage bytes s = .ok t ↔ ws.length ≤ 32768 ∧ loadWords 0 ws s = t := by
  simp only [loadImage, h, Config.memWords, Config.loadBase]
  split
  · exact iff_of_false nofun fun hfit => by omega
  · rw [Except.ok.injEq, iff_and_self]
    omega

theorem boot_ok_iff {bytes : List (BitVec 8)} {s t : State} :
    boot bytes s = .ok t ↔ ∃ u, loadImage bytes (assertReset s) = .ok u ∧ releaseReset u = t := by
  cases h : loadImage bytes (assertReset s) with
  | ok u => simp [boot, h]
  | error e => simp [boot, h]

/-- The state a boot of the words `ws` leaves: `State.reset` with the image placed, the channel's codes and the
parameters kept (70_reset_and_hazards.md R222; assumptions 2 and 9). -/
def bootState (ws : List Word) (s : State) : State :=
  { State.reset with
    mem := placeWords 0 ws []
    input := s.input
    params := s.params
    waitTick := s.waitTick }

/-- A boot that succeeds leaves `bootState`, and only an image that fits memory boots. -/
theorem boot_ok {bytes : List (BitVec 8)} {ws : List Word} {s t : State} (hs : s.runState ≠ .reset)
    (hws : imageWords bytes = some ws) (hboot : boot bytes s = .ok t) :
    ws.length ≤ 32768 ∧ t = bootState ws s := by
  obtain ⟨u, hload, rfl⟩ := boot_ok_iff.mp hboot
  obtain ⟨hfit, rfl⟩ := (loadImage_ok_iff hws).mp hload
  rw [assertReset, if_neg hs, loadWords_in_reset rfl (by omega), releaseReset_in_reset rfl]
  exact ⟨hfit, rfl⟩

/-- The unified space after a boot: the image from address 0 up, and 0 elsewhere, the registers included. -/
theorem bootState_peek {ws : List Word} (hfit : ws.length ≤ 32768) (s : State) (a : Nat) :
    (bootState ws s).peek a = if h : a < ws.length then ws[a] else 0 := by
  by_cases ha : a < 32768
  · rw [peek_cell _ ha, bootState, read_placeWords]
    simp [ha, read_nil]
  · rw [dif_neg (by omega)]
    simp [State.peek, ha, bootState, State.reset]

/-- Settles O1: a successful boot leaves `bootState`, whose fields are the reset values and whose unified space is the
image. -/
theorem bootGivesInitialState : Obligations.BootGivesInitialState := by
  unfold Obligations.BootGivesInitialState
  intro bytes ws s t hs hws hboot
  obtain ⟨hfit, rfl⟩ := boot_ok hs hws hboot
  refine ⟨rfl, fun k hk => ?_, fun a ha => ?_, rfl, rfl, rfl, rfl, rfl⟩
  · rw [bootState_peek hfit, dif_pos hk]
  · rw [bootState_peek hfit, dif_neg (by omega)]

end Sys2Proof.Machine
end

section
/-! Encoding: decoder and encoder are inverse on every instruction, the opcode word fixes the length, and what a value
operand's word stands for (30_encoding.md R70 to R79; 20_memory.md R53). -/

namespace Sys2Proof.Machine

/-- The decoder reads back every instruction, constructor by constructor. -/
theorem readBack : ∀ i : Instr, Laws.ReadBack.Statement i
  | .halt => Laws.ReadBack.halt
  | .set a b => Laws.ReadBack.set a b
  | .push a => Laws.ReadBack.push a
  | .pop a => Laws.ReadBack.pop a
  | .eq a b c => Laws.ReadBack.eq a b c
  | .gt a b c => Laws.ReadBack.gt a b c
  | .jmp a => Laws.ReadBack.jmp a
  | .jt a b => Laws.ReadBack.jt a b
  | .jf a b => Laws.ReadBack.jf a b
  | .add a b c => Laws.ReadBack.add a b c
  | .mult a b c => Laws.ReadBack.mult a b c
  | .mod a b c => Laws.ReadBack.mod a b c
  | .and a b c => Laws.ReadBack.and a b c
  | .or a b c => Laws.ReadBack.or a b c
  | .not a b => Laws.ReadBack.not a b
  | .rmem a b => Laws.ReadBack.rmem a b
  | .wmem a b => Laws.ReadBack.wmem a b
  | .call a => Laws.ReadBack.call a
  | .ret => Laws.ReadBack.ret
  | .out a => Laws.ReadBack.out a
  | .input a => Laws.ReadBack.input a
  | .noop => Laws.ReadBack.noop

/-- Every encoding is a row of the opcode map, constructor by constructor. -/
theorem encodingRow : ∀ i : Instr, Laws.EncodingRow.Statement i
  | .halt => Laws.EncodingRow.halt
  | .set a b => Laws.EncodingRow.set a b
  | .push a => Laws.EncodingRow.push a
  | .pop a => Laws.EncodingRow.pop a
  | .eq a b c => Laws.EncodingRow.eq a b c
  | .gt a b c => Laws.EncodingRow.gt a b c
  | .jmp a => Laws.EncodingRow.jmp a
  | .jt a b => Laws.EncodingRow.jt a b
  | .jf a b => Laws.EncodingRow.jf a b
  | .add a b c => Laws.EncodingRow.add a b c
  | .mult a b c => Laws.EncodingRow.mult a b c
  | .mod a b c => Laws.EncodingRow.mod a b c
  | .and a b c => Laws.EncodingRow.and a b c
  | .or a b c => Laws.EncodingRow.or a b c
  | .not a b => Laws.EncodingRow.not a b
  | .rmem a b => Laws.EncodingRow.rmem a b
  | .wmem a b => Laws.EncodingRow.wmem a b
  | .call a => Laws.EncodingRow.call a
  | .ret => Laws.EncodingRow.ret
  | .out a => Laws.EncodingRow.out a
  | .input a => Laws.EncodingRow.input a
  | .noop => Laws.EncodingRow.noop

/-- A list that decodes starts with an opcode word whose operands are read from the rest. -/
theorem decode_ok {ws rest : List Word} {i : Instr} (h : decode ws = .ok (i, rest)) :
    ∃ op ops, ws = op :: ops ∧ decodeOperands op.toNat ops = some (i, rest) := by
  cases ws with
  | nil => cases h
  | cons op ops =>
    refine ⟨op, ops, rfl, ?_⟩
    simp only [decode] at h
    split at h
    · cases h
    · split at h
      · rename_i hops
        rw [hops, Except.ok.inj h]
      · cases h

/-- An opcode has three operand words at most (30_encoding.md R75). -/
theorem arity_le {op : Word} {n : Nat} (h : arity op = some n) : n ≤ 3 := by
  unfold arity opTable at h
  split at h <;> cases h <;> decide

theorem arity_legal {op : Word} {n : Nat} (h : arity op = some n) : op.toNat ≤ 21 := by
  by_contra hop
  rw [(arity_none_iff op).mpr (Nat.lt_of_not_le hop)] at h
  cases h

/-- The encoding of an instruction is its opcode word and as many operand words as the opcode map says
(30_encoding.md R79). -/
theorem arity_of_head {i : Instr} {op : Word} (h : (encode i).head? = some op) :
    arity op = some ((encode i).length - 1) ∧ (encode i).length ≠ 0 := by
  obtain ⟨op', ws, he, ha⟩ := encodingRow i
  rw [he] at h ⊢
  obtain rfl : op' = op := Option.some.inj h
  exact ⟨ha, Nat.succ_ne_zero _⟩

/-- A word that names a register has the register's value (20_memory.md R53). -/
theorem valueOf_alias {w : Word} (hlo : 32768 ≤ w.toNat) (hhi : w.toNat ≤ 32775) (s : State) :
    valueOf (Operand.ofWord w) s = (readReg (regOfWord w) s).setWidth 16 := by
  rw [ofWord_reg hlo hhi, valueOf]

theorem valueOf_low {w : Word} (h : w.toNat ≤ 32767) (s : State) : valueOf (Operand.ofWord w) s = w := by
  rw [ofWord_lit h, valueOf, setWidth_16_15 h]

theorem valueOf_high {w : Word} (h : 32775 < w.toNat) (s : State) : valueOf (Operand.ofWord w) s = w := by
  rw [ofWord_high h, valueOf]

/-- `Deref` of a raw word is the value of the operand it encodes (20_memory.md R53, 30_encoding.md R73). -/
theorem deref_eq_valueOf (w : Word) (s : State) : deref w s = valueOf (Operand.ofWord w) s := by
  unfold deref
  split
  · rename_i halias
    obtain ⟨hlo, hhi⟩ := halias
    rw [valueOf_alias hlo hhi]
    rfl
  · rename_i hplain
    simp only [Config.regBase, Config.addrMax] at hplain
    by_cases hlo : w.toNat ≤ 32767
    · rw [valueOf_low hlo]
    · rw [valueOf_high (by omega)]

/-- Settles O7: the operand classes are read back from their words, so each row of the opcode map is. -/
theorem decodeReadsBackEncode : Obligations.DecodeReadsBackEncode := by
  unfold Obligations.DecodeReadsBackEncode
  exact fun i rest hwf => readBack i hwf rest

/-- Settles O8: what the decoder takes off a list is what the encoder writes. -/
theorem encodeReadsBackDecode : Obligations.EncodeReadsBackDecode := by
  unfold Obligations.EncodeReadsBackDecode
  intro ws rest i h
  obtain ⟨op, ops, rfl, hops⟩ := decode_ok h
  exact decodeOperands_sound hops

/-- Settles O9: the decoder run on each list of words. -/
theorem sampleWordsDecode : Obligations.SampleWordsDecode := by
  unfold Obligations.SampleWordsDecode
  exact ⟨rfl, rfl, rfl, rfl, rfl, rfl, rfl, rfl, rfl, rfl, rfl⟩

/-- Settles O11: the three classes of an operand word, and `Deref` by the same classes. -/
theorem valueOperandIsDereferenced : Obligations.ValueOperandIsDereferenced := by
  unfold Obligations.ValueOperandIsDereferenced
  refine fun w s => ⟨fun hlow => valueOf_low (by omega) s, fun r hr => ?_, fun hhigh => valueOf_high hhigh s,
    ?_, deref_eq_valueOf w s⟩
  · have hlt := r.isLt
    have hreg : regOfWord w = r := Fin.ext (by have := regOfWord_val (w := w); omega)
    rw [valueOf_alias (by omega) (by omega), toNat_setWidth_16, hreg, readReg]
  · have := valueOf_range (word_ofWord w).2 s
    omega

/-- Settles O12: the opcode map's row of the opcode word counts the operand words. -/
theorem lengthFollowsFromOpcode : Obligations.LengthFollowsFromOpcode := by
  unfold Obligations.LengthFollowsFromOpcode
  intro i
  obtain ⟨op, ws, he, ha⟩ := encodingRow i
  have hlen := arity_le ha
  refine ⟨by simp [he], by simp [he]; omega, ⟨op, by rw [he]; rfl, arity_legal ha⟩, fun j hj => ?_⟩
  obtain ⟨hj, hj0⟩ := arity_of_head (hj.trans (by rw [he, List.head?_cons]))
  rw [ha, Option.some.injEq] at hj
  rw [he, List.length_cons]
  omega

end Sys2Proof.Machine
end

section
/-! The instructions that end in a push, a pop or a checked store, each on its own (41_data_movement.md, 42_alu.md,
43_control_transfer.md section 3, 44_io.md). -/

namespace Sys2Proof.Machine

/-- A well-formed instruction runs wherever its words stand at the pc (40_dispatch.md R91). -/
theorem runsAs_of_wf {i : Instr} (hwf : i.wf = true) : RunsAs i (encode i) :=
  runsAs_encode (readBack i) (encodingRow i) hwf

/-! ### Each instruction's effect through the operation it ends in -/

theorem exec_mod_zero {b c : Operand} {s : State} (h : (valueOf c s).toNat = 0) (a : Dest) :
    exec (.mod a b c) s = .next (raise .divideByZero (valueOf b s) s) :=
  if_pos (BitVec.eq_of_toNat_eq h)

theorem exec_mod_nonzero {b c : Operand} {s : State} (h : (valueOf c s).toNat ≠ 0) (a : Dest) :
    exec (.mod a b c) s = (storeSet a.addr (modResult (valueOf b s) (valueOf c s)) s).outcome :=
  if_neg fun hzero => h (by rw [hzero]; rfl)

theorem exec_not (a : Dest) (b : Operand) (s : State) :
    exec (.not a b) s = (storeSet a.addr (notResult (valueOf b s)) s).outcome := rfl

theorem exec_rmem_legal {b : Operand} {s : State} (h : (valueOf b s).toNat ≤ 32775) (a : Dest) :
    exec (.rmem a b) s = (storeSet a.addr (s.peek (valueOf b s).toNat) s).outcome := by
  rw [exec, execRmem, storeGet_legal h, andThen_done]

theorem exec_rmem_illegal {b : Operand} {s : State} (h : 32775 < (valueOf b s).toNat) (a : Dest) :
    exec (.rmem a b) s = .next (raise .addressRange (valueOf b s) s) := by
  rw [exec, execRmem, storeGet_illegal h, andThen_stop, outcome_stop]

theorem exec_pop_empty {s : State} (h : s.stack = []) (a : Dest) :
    exec (.pop a) s = .next (raise .stackUnderflow 0 s) := by
  rw [exec, execPop, pop_empty h, andThen_stop, outcome_stop]

theorem exec_pop_concat {s : State} {st : List Value} {v : Value} (h : s.stack = st ++ [v]) (a : Dest) :
    exec (.pop a) s = (storeSet a.addr (v.setWidth 16) (setStack st s)).outcome := by
  rw [exec, execPop, pop_concat h, andThen_done]

theorem exec_ret_concat {s : State} {st : List Value} {v : Value} (h : s.stack = st ++ [v]) :
    exec .ret s = .next { s with stack := st, pc := v.setWidth 16 } := by
  rw [exec, execRet, if_neg (by simp [h]), pop_concat h, andThen_done, outcome_done, jump, setStack]

theorem exec_ret_halt {s : State} (h : s.stack = []) (hp : s.params.retEmptyPolicy = .halt) :
    exec .ret s = .next { s with runState := .halted } := by
  simp only [exec, execRet, if_pos h, hp, haltRun]

theorem exec_ret_fault {s : State} (h : s.stack = []) (hp : s.params.retEmptyPolicy = .fault) :
    exec .ret s = .next (raise .stackUnderflow 0 s) := by
  simp only [exec, execRet, if_pos h, hp]

theorem exec_call_value {s : State} (h : 32767 < s.pc.toNat) (a : Operand) :
    exec (.call a) s = .next (raise .valueRange s.pc s) := by
  rw [exec, execCall, push_value h, andThen_stop, outcome_stop]

theorem exec_call_full {s : State} (h : s.pc.toNat ≤ 32767) (hfull : s.params.stackDepth = some s.stack.length)
    (a : Operand) : exec (.call a) s = .next (raise .stackOverflow s.pc s) := by
  rw [exec, execCall, push_full h hfull, andThen_stop, outcome_stop]

theorem exec_call_room {s : State} (h : s.pc.toNat ≤ 32767) (hroom : s.params.stackDepth ≠ some s.stack.length)
    (a : Operand) :
    exec (.call a) s = .next { s with stack := s.stack ++ [s.pc.setWidth 15], pc := valueOf a s } := by
  rw [exec, execCall, push_room h hroom, andThen_done, outcome_done, jump, setStack]

theorem exec_out (a : Operand) (s : State) :
    exec (.out a) s = .next { s with output := s.output ++ [valueOf a s] } := rfl

theorem exec_input_none {s : State} (h : s.input = []) (a : Dest) :
    exec (.input a) s = .fault .waitingForInput := by
  simp only [exec, execIn, receive, h]

theorem exec_input_cons {s : State} {k : Word} {rest : List Word} (h : s.input = k :: rest) (a : Dest) :
    exec (.input a) s = (storeSet a.addr k (consumeInput rest s)).outcome := by
  simp only [exec, execIn, receive, h]

/-! ### The remainder and the complement as numbers -/

theorem modResult_toNat (b c : Word) : (modResult b c).toNat = b.toNat % c.toNat := by
  rw [modResult, BitVec.toNat_ofNat]
  exact Nat.mod_eq_of_lt (Nat.lt_of_le_of_lt (Nat.mod_le _ _) b.isLt)

theorem notResult_toNat (b : Word) : (notResult b).toNat = b.toNat ^^^ 32767 := BitVec.toNat_xor ..

/-- Bit 15 survives the complement (42_alu.md R138). -/
theorem notResult_high_iff (b : Word) : 32767 < (notResult b).toNat ↔ 32767 < b.toNat := by
  have hmask : (0x7FFF : Word).msb = false := rfl
  rw [word_high_iff_msb, word_high_iff_msb, notResult, BitVec.msb_xor, hmask, Bool.xor_false]

/-- On data words the complement is the distance from the greatest one (42_alu.md R138). -/
theorem xor_wordMax {n : Nat} (h : n ≤ 32767) : n ^^^ 32767 = 32767 - n := by
  have hn : (BitVec.ofNat 15 n).toNat = n := by rw [BitVec.toNat_ofNat]; omega
  have hcompl := congrArg BitVec.toNat (BitVec.xor_allOnes (x := BitVec.ofNat 15 n))
  rwa [BitVec.toNat_xor, BitVec.toNat_not, hn] at hcompl

/-- The complement of a data word is its 15-bit complement (42_alu.md R138). -/
theorem notResult_value (v : Value) : notResult (v.setWidth 16) = (v ^^^ 32767).setWidth 16 := by
  rw [BitVec.setWidth_xor]
  rfl

/-! ### One register, read and written (10_state.md R20) -/

theorem regOfAddr_reg (r : Reg) : regOfAddr (Dest.reg r).addr = r := regOfWord_alias r

theorem readReg_writeReg (r : Reg) (v : Value) (s : State) : readReg r (writeReg r v s) = v :=
  Vector.getElem_set_self ..

theorem writeReg_writeReg (r : Reg) (v v' : Value) (s : State) :
    writeReg r v' (writeReg r v s) = writeReg r v' s := by
  simp only [writeReg, Vector.set_set]

theorem writeReg_readReg (r : Reg) (s : State) : writeReg r (readReg r s) s = s := by
  rw [writeReg, readReg, Fin.getElem_fin, Vector.set_getElem_self]

/-- `not r r` leaves the 15-bit complement in the register. -/
theorem exec_not_reg (r : Reg) (s : State) :
    exec (.not (.reg r) (.reg r)) s = .next (writeReg r (readReg r s ^^^ 32767) s) := by
  have haddr := addr_reg r
  have hr := r.isLt
  rw [exec_not, valueOf, notResult_value, storeSet_reg (by omega) (by omega) (value_word_low _), setWidth_15_16,
    regOfAddr_reg, outcome_done]

/-! ### The obligations -/

/-- Settles O13: every well-formed instruction runs where its words stand. -/
theorem stepRunsDecodedInstruction : Obligations.StepRunsDecodedInstruction := by
  unfold Obligations.StepRunsDecodedInstruction
  intro i s hwf hcode
  obtain ⟨-, hstep⟩ := runsAs_of_wf hwf
  exact hstep s hcode

/-- Settles O24: `call` is `Push` of the pc and then a jump, so a faulting push leaves stack and pc. -/
theorem callPushesReturnAddress : Obligations.CallPushesReturnAddress := by
  unfold Obligations.CallPushesReturnAddress
  exact fun a => ⟨runsAs_of_wf, fun s => ⟨fun hv => exec_call_value hv a, fun hv hfull => exec_call_full hv hfull a,
    fun hv hroom => exec_call_room hv hroom a⟩⟩

/-- Settles O25: with a top `ret` is `Pop` and a jump; on an empty stack the parameter decides. -/
theorem retPopsReturnAddress : Obligations.RetPopsReturnAddress := by
  unfold Obligations.RetPopsReturnAddress
  exact ⟨runsAs_of_wf rfl, fun s => ⟨fun _ _ => exec_ret_concat, exec_ret_halt, exec_ret_fault⟩⟩

/-- Settles O26: the return address is a data word, so the 15-bit entry gives it back whole. -/
theorem retUndoesCall : Obligations.RetUndoesCall := by
  unfold Obligations.RetUndoesCall
  intro a s t u hcall hpc hroom hstack
  obtain rfl := Host.Outcome.next.inj ((exec_call_room hpc hroom a).symm.trans hcall)
  rw [exec_ret_concat hstack, setWidth_16_15 hpc]

/-- Settles O29: `pop` is `Pop` and then `StoreSet` of the top from the state without it. -/
theorem popStoresTop : Obligations.PopStoresTop := by
  unfold Obligations.PopStoresTop
  refine fun a => ⟨runsAs_of_wf, fun s => ⟨fun hempty => exec_pop_empty hempty a, fun st v hstack => ?_⟩⟩
  rw [exec_pop_concat hstack, ← toNat_setWidth_16 v]
  exact storesChecked_storeSet ..

/-- Settles O30: `rmem` is `StoreGet` and then `StoreSet` of the word read. -/
theorem rmemReadsMemory : Obligations.RmemReadsMemory := by
  unfold Obligations.RmemReadsMemory
  refine fun a b => ⟨runsAs_of_wf, fun s => ⟨fun hill => exec_rmem_illegal hill a, fun hleg => ?_, fun hwf hleg => ?_⟩⟩
  · rw [exec_rmem_legal hleg]
    exact storesChecked_storeSet ..
  · have := valueOf_range hwf s
    omega

/-- Settles O36: the divisor is tested first; otherwise `mod` is `StoreSet` of the remainder. -/
theorem modStoresRemainder : Obligations.ModStoresRemainder := by
  unfold Obligations.ModStoresRemainder
  refine fun a b c => ⟨runsAs_of_wf, fun s => ⟨fun hzero => exec_mod_zero hzero a, fun hdiv => ?_⟩⟩
  rw [exec_mod_nonzero hdiv, ← modResult_toNat]
  exact storesChecked_storeSet ..

/-- Settles O39: `not` is `StoreSet` of the complement, which flips the fifteen low bits alone. -/
theorem notStoresComplement : Obligations.NotStoresComplement := by
  unfold Obligations.NotStoresComplement
  refine fun a b => ⟨runsAs_of_wf, fun s => ⟨?_, xor_wordMax, ?_⟩⟩
  · rw [exec_not, ← notResult_toNat]
    exact storesChecked_storeSet ..
  · rw [← notResult_toNat]
    exact notResult_high_iff _

/-- Settles O40: the complement of the complement is the register's first value, and `not` writes nothing else. -/
theorem doubleNotRestores : Obligations.DoubleNotRestores := by
  unfold Obligations.DoubleNotRestores
  refine fun r s => ⟨_, exec_not_reg r s, ?_⟩
  rw [exec_not_reg, readReg_writeReg, writeReg_writeReg, BitVec.xor_assoc, BitVec.xor_self, BitVec.xor_zero,
    writeReg_readReg]

/-- Settles O41: `out` is one `Emit`, and the strobe is what the trace has grown by. -/
theorem outEmitsCode : Obligations.OutEmitsCode := by
  unfold Obligations.OutEmitsCode
  exact fun a => ⟨runsAs_of_wf, fun s => ⟨exec_out a s, List.drop_left⟩⟩

/-- Settles O42: `in` is `Receive` and then `StoreSet` of the code from the state without it. -/
theorem inStoresReceivedCode : Obligations.InStoresReceivedCode := by
  unfold Obligations.InStoresReceivedCode
  refine fun a => ⟨runsAs_of_wf, fun s k rest hinput => ?_⟩
  rw [exec_input_cons hinput]
  exact storesChecked_storeSet ..

/-- Settles O47: the outcomes of `StoreSet` and `StoreGet`, range by range. -/
theorem storeSetIsTheValidatedWrite : Obligations.StoreSetIsTheValidatedWrite := by
  unfold Obligations.StoreSetIsTheValidatedWrite
  refine fun a v s => ⟨fun hill => ⟨storeSet_illegal hill v s, storeGet_illegal hill s⟩, fun hleg => ?_⟩
  exact ⟨storeGet_legal hleg s, fun hv => storeSet_value hleg hv s, fun hv => storeSet_legal hleg hv s⟩

end Sys2Proof.Machine
end

section
/-! The host's events and the image loader: reset, the load port, the ports and the input channel (20_memory.md R64,
44_io.md R173 to R175, 70_reset_and_hazards.md R220 to R222). -/

namespace Sys2Proof.Machine

/-! ### The image -/

/-- An image of an odd number of bytes has no words, one of an even number has half as many (20_memory.md R58). -/
theorem imageWords_cases (bytes : List (BitVec 8)) :
    (bytes.length % 2 = 1 ∧ imageWords bytes = none) ∨
      ∃ ws, imageWords bytes = some ws ∧ bytes.length = 2 * ws.length := by
  induction bytes using imageWords.induct with
  | case1 => exact .inr ⟨[], rfl, rfl⟩
  | case2 => exact .inl ⟨rfl, rfl⟩
  | case3 lo hi bytes ih =>
    rw [imageWords]
    rcases ih with ⟨hodd, hnone⟩ | ⟨ws, hws, hlen⟩
    · exact .inl ⟨by simp only [List.length_cons]; omega, by rw [hnone]; rfl⟩
    · exact .inr ⟨_ :: ws, by rw [hws]; rfl, by simp only [List.length_cons]; omega⟩

theorem loadImage_odd {bytes : List (BitVec 8)} (h : imageWords bytes = none) (s : State) :
    loadImage bytes s = .error .oddLength := by
  simp only [loadImage, h]

theorem loadImage_long {bytes : List (BitVec 8)} {ws : List Word} (h : imageWords bytes = some ws)
    (hlen : 32768 < ws.length) (s : State) : loadImage bytes s = .error .tooLong := by
  simp only [loadImage, h]
  exact if_pos hlen

theorem boot_error {bytes : List (BitVec 8)} {s : State} {e : LoadError}
    (h : loadImage bytes (assertReset s) = .error e) : boot bytes s = .error e := by
  simp only [boot, h]

/-- Settles O2: the three outcomes of the loader, by the number of words the bytes make. -/
theorem imageLoadsOrIsRefused : Obligations.ImageLoadsOrIsRefused := by
  unfold Obligations.ImageLoadsOrIsRefused
  intro bytes s
  rcases imageWords_cases bytes with ⟨hodd, hnone⟩ | ⟨ws, hws, hlen⟩
  · exact ⟨fun _ => boot_error (loadImage_odd hnone _), fun heven => by omega, fun heven => by omega⟩
  · refine ⟨fun hodd => by omega, fun _ hlong => boot_error (loadImage_long hws (by omega) _), fun _ hfit => ?_⟩
    exact ⟨_, boot_ok_iff.mpr ⟨_, (loadImage_ok_iff hws).mpr ⟨by omega, rfl⟩, rfl⟩⟩

/-! ### Events in and out of reset -/

theorem loadPort_not_in_reset {s : State} (h : s.runState ≠ .reset) (a : Value) (v : Word) :
    loadPort a v s = s := if_neg h

theorem releaseReset_not_in_reset {s : State} (h : s.runState ≠ .reset) : releaseReset s = s := if_neg h

theorem assertReset_not_in_reset {s : State} (h : s.runState ≠ .reset) :
    assertReset s = { State.reset with
      runState := .reset, input := s.input, params := s.params, waitTick := s.waitTick } := if_neg h

/-- With no cell listed and the registers at 0 the whole unified space reads 0 (10_state.md R33). -/
theorem peek_of_reset_values {s : State} (hmem : s.mem = []) (hregs : s.regs = Vector.replicate 8 0) (a : Nat) :
    s.peek a = 0 := by
  simp [State.peek, hmem, hregs, read_nil]

theorem step_in_reset {s : State} (h : s.runState = .reset) : step s = .fault .heldInReset := by
  simp only [step, h]

theorem step_halted {s : State} (h : s.runState = .halted) : step s = .fault .runHalted := by
  simp only [step, h]

theorem step_faulted {s : State} (h : s.runState = .faulted) : step s = .fault .runFaulted := by
  simp only [step, h]

/-- Outside reset no event but the assertion of reset moves the run state (10_state.md R27). -/
theorem hostEvent_runState {s : State} (h : s.runState ≠ .reset) {e : HostEvent} (he : e ≠ .assertReset) :
    (hostEvent e s).runState = s.runState := by
  cases e with
  | assertReset => exact absurd rfl he
  | load a v => exact congrArg State.runState (loadPort_not_in_reset h a v)
  | releaseReset => exact congrArg State.runState (releaseReset_not_in_reset h)
  | offer k => exact offerCodes_runState ..
  | offerLine ks => exact offerCodes_runState ..
  | noCode => exact settleWait_runState ..

/-- Offered codes grow the stream, and a block with a code to take does not wait (10_state.md R31). -/
theorem offerCodes_nonempty {ks : List Word} (h : ks ≠ []) (s : State) :
    offerCodes ks s = { s with input := s.input ++ ks, inWait := false } :=
  settleWait_else fun ⟨_, hinput, _⟩ => h (List.append_eq_nil_iff.mp hinput).2

/-- Settles O3: reset asserted from outside reset builds the reset values, and its release moves the run state alone. -/
theorem resetClearsTheBlock : Obligations.ResetClearsTheBlock := by
  unfold Obligations.ResetClearsTheBlock
  refine ⟨fun s hs => ?_, rfl, peek_of_reset_values rfl rfl, rfl, rfl, rfl, rfl, rfl, rfl⟩
  intro r
  obtain hr : r = _ := assertReset_not_in_reset hs
  clear_value r
  subst hr
  exact ⟨rfl, peek_of_reset_values rfl rfl, rfl, rfl, rfl, rfl, rfl, rfl, rfl, rfl, rfl, step_in_reset rfl,
    releaseReset_in_reset rfl⟩

/-- Settles O4: in reset the load is the raw write of one cell, and elsewhere it is ignored. -/
theorem loadPortWritesRawOnlyInReset : Obligations.LoadPortWritesRawOnlyInReset := by
  unfold Obligations.LoadPortWritesRawOnlyInReset
  refine fun a v s => ⟨fun hreset => ?_, fun hrun => loadPort_not_in_reset hrun a v⟩
  rw [hostEvent, loadPort_in_reset hreset]
  exact storedAt_writeCell s v a.isLt

/-- Settles O5: the codes of both encodings, and each port as the register it shows. -/
theorem portsShowStatus : Obligations.PortsShowStatus := by
  unfold Obligations.PortsShowStatus
  refine ⟨⟨rfl, rfl, rfl, rfl⟩, ⟨rfl, rfl, rfl, rfl, rfl, rfl, rfl, rfl⟩, fun s => ?_⟩
  exact ⟨rfl, rfl, rfl, rfl, rfl, rfl, fun hwait => if_neg (by simp [hwait])⟩

/-- Settles O6: a terminal state is neither running nor in reset. -/
theorem terminalStatesLeftOnlyByReset : Obligations.TerminalStatesLeftOnlyByReset := by
  unfold Obligations.TerminalStatesLeftOnlyByReset
  intro s hterminal
  have hrun : s.runState ≠ .running := by rcases hterminal with h | h <;> simp [h]
  have hreset : s.runState ≠ .reset := by rcases hterminal with h | h <;> simp [h]
  exact ⟨fun _ => step_not_running hrun, fun _ => hostEvent_runState hreset,
    congrArg State.runState (assertReset_not_in_reset hreset)⟩

/-- Settles O16: a step stops by the name of each run state but RUNNING. -/
theorem noStepUnlessRunning : Obligations.NoStepUnlessRunning := by
  unfold Obligations.NoStepUnlessRunning
  exact fun _ => ⟨step_in_reset, step_halted, step_faulted⟩

/-- Settles O46: a line is an offer of its codes and the newline code, never of none. -/
theorem lineIsDeliveredWithNewline : Obligations.LineIsDeliveredWithNewline := by
  unfold Obligations.LineIsDeliveredWithNewline
  refine fun cs s => ⟨?_, rfl⟩
  rw [hostEvent, offerCodes_nonempty (by simp), List.append_assoc]

end Sys2Proof.Machine
end

section
/-! When a running block steps: the fetch faults past memory, and the wait at an `in` with no code (40_dispatch.md R90,
R92; 44_io.md R173, R176; 10_state.md R31). -/

namespace Sys2Proof.Machine

/-- An opcode whose operands run past memory ends the step at 32768 (40_dispatch.md R92, R94). -/
theorem step_operand_past {s : State} {n : Nat} (hrun : s.runState = .running) (hpc : s.pc.toNat ≤ 32767)
    (harity : arity (s.mem.read s.pc.toNat) = some n) (hpast : 32767 < s.pc.toNat + n) :
    step s = .next (settleWait (raise .addressRange 32768 (jump 32768 (latchIa s)))) := by
  have hnext : (s.pc + 1).toNat = s.pc.toNat + 1 := pc_add_toNat (n := 1) (by omega)
  apply step_stop hrun
  rw [fetchInstr_arity (s := latchIa s) hpc harity, latchIa_pc, fetchWords_past (by rw [jump_pc, hnext]; omega)
    (by rw [jump_pc, hnext]; omega), andThen_stop, jump_jump]

/-- Settles O15: the fetch faults at the opcode or at the first operand word past memory. -/
theorem fetchPastMemoryFaults : Obligations.FetchPastMemoryFaults := by
  unfold Obligations.FetchPastMemoryFaults
  refine fun s => ⟨fetchFaults s, fun n hrun hpc harity hpast => ?_⟩
  rw [step_operand_past hrun hpc harity hpast, settleWait_raise]
  rfl

/-- Whatever an operation does inside an instruction, the instruction has a next state. -/
theorem outcome_next (r : Res Unit) : ∃ t, r.outcome = .next t := by
  cases r with
  | done v s => exact ⟨s, rfl⟩
  | stop s => exact ⟨s, rfl⟩

/-- Every instruction answers a next state, an `in` where a code is offered (44_io.md R173). -/
theorem exec_total {i : Instr} {s : State} (h : (∃ a, i = .input a) → s.input ≠ []) : ∃ t, exec i s = .next t := by
  cases i with
  | halt | jmp | jt | jf | out | noop => exact ⟨_, rfl⟩
  | set | push | pop | eq | gt | add | mult | and | or | not | rmem | wmem | call => exact outcome_next _
  | mod a b c =>
    by_cases hzero : (valueOf c s).toNat = 0
    · exact ⟨_, exec_mod_zero hzero a⟩
    · rw [exec_mod_nonzero hzero]
      exact outcome_next _
  | ret =>
    rcases pop_cases s with ⟨hempty, -⟩ | ⟨st, v, hstack, -⟩
    · cases hp : s.params.retEmptyPolicy with
      | halt => exact ⟨_, exec_ret_halt hempty hp⟩
      | fault => exact ⟨_, exec_ret_fault hempty hp⟩
    · exact ⟨_, exec_ret_concat hstack⟩
  | input a =>
    obtain ⟨k, rest, hinput⟩ := List.exists_cons_of_ne_nil (h ⟨a, rfl⟩)
    rw [exec_input_cons hinput]
    exact outcome_next _

/-- The wait is the words of an `in` at the pc of a running block with no code (10_state.md R31). -/
theorem waitsAtIn_iff (s : State) : waitsAtIn s ↔ s.input = [] ∧ ∃ w, CodeAt s [20, w] := by
  constructor
  · rintro ⟨hrun, hinput, hpc, hop⟩
    refine ⟨hinput, s.mem.read (s.pc.toNat + 1), codeAt_of_wordsFrom hrun ?_ ?_⟩
    · simp only [List.length_cons, List.length_nil]
      omega
    · simp only [List.length_cons, List.length_nil, wordsFrom_succ, wordsFrom_zero, hop]
  · rintro ⟨hinput, w, hcode⟩
    have hpc : s.pc.toNat + 2 ≤ 32768 := hcode.inMemory
    exact ⟨hcode.running, hinput, by omega, hcode.words 0 Nat.zero_lt_two⟩

/-- The words 20, w run as the `in` whose destination is `w` (30_encoding.md R74, R75). -/
theorem runsAs_input (w : Word) : RunsAs (.input (Dest.ofWord w)) [20, w] := by
  obtain ⟨haddr, hwf⟩ := addr_ofWord w
  have hruns : RunsAs _ _ := runsAs_of_wf (i := .input (Dest.ofWord w)) hwf
  rwa [encode, haddr] at hruns

/-- At the words 20, w with no code offered no step is enabled (40_dispatch.md R90, 44_io.md R176). -/
theorem step_input_none {s : State} {w : Word} (hcode : CodeAt s [20, w]) (hinput : s.input = []) :
    step s = .fault .waitingForInput := by
  obtain ⟨-, hstep⟩ := runsAs_input w
  rw [hstep s hcode, exec_input_none (by exact hinput), settle]

theorem step_waiting {s : State} (h : waitsAtIn s) : step s = .fault .waitingForInput := by
  obtain ⟨hinput, w, hcode⟩ := (waitsAtIn_iff s).mp h
  exact step_input_none hcode hinput

/-- A running block that does not wait steps (40_dispatch.md R90). -/
theorem step_not_waiting {s : State} (hrun : s.runState = .running) (h : ¬ waitsAtIn s) : ∃ t, step s = .next t := by
  rcases step_running_cases hrun with ⟨-, hstep⟩ | ⟨-, -, hstep⟩ | ⟨n, -, -, -, hstep⟩ | ⟨i, -, hcode, hstep⟩
  · exact ⟨_, hstep⟩
  · exact ⟨_, hstep⟩
  · exact ⟨_, hstep⟩
  · have henabled : (∃ a, i = .input a) → s.input ≠ [] := by
      rintro ⟨a, rfl⟩ hinput
      exact h ((waitsAtIn_iff s).mpr ⟨hinput, a.addr, hcode⟩)
    obtain ⟨t, ht⟩ := exec_total (s := afterFetch s (encode i).length) henabled
    exact ⟨settleWait t, by rw [hstep, ht, settle_next]⟩

/-- Settles O17: only `in` without a code answers no next state, and it is where a block waits. -/
theorem runningBlockStepsUnlessWaiting : Obligations.RunningBlockStepsUnlessWaiting := by
  unfold Obligations.RunningBlockStepsUnlessWaiting
  exact ⟨fun _ _ => exec_total, fun _ hrun => ⟨step_waiting, step_not_waiting hrun⟩⟩

/-- Code at the pc depends on the run state, the pc and memory alone. -/
theorem CodeAt.congr {s t : State} {ws : List Word} (h : CodeAt s ws) (hrun : t.runState = s.runState)
    (hpc : t.pc = s.pc) (hmem : t.mem = s.mem) : CodeAt t ws :=
  ⟨hrun.trans h.running, hpc ▸ h.inMemory, by rw [hpc, hmem]; exact h.words⟩

/-- Settles O43: the wait is a stop, and the cycle without a code sets IN_WAIT alone. -/
theorem inIsNotEnabledWithoutInput : Obligations.InIsNotEnabledWithoutInput := by
  unfold Obligations.InIsNotEnabledWithoutInput
  refine fun w s hinput => ⟨exec_input_none hinput, fun hcode => ?_⟩
  intro u
  obtain hu : u = _ := settleWait_waits ((waitsAtIn_iff s).mpr ⟨hinput, w, hcode⟩)
  clear_value u
  subst hu
  have hcode' : CodeAt { s with inWait := true, waitTick := s.waitTick + 1 } [20, w] := hcode.congr rfl rfl rfl
  exact ⟨step_input_none hcode hinput, step_input_none hcode' hinput, rfl, rfl, hcode'⟩

/-- A checked store has a next state: one of its two faults, or the store (20_memory.md R55). -/
theorem StoresChecked.next_cases {s : State} {o : Host.Outcome State Fault Refusal} {a : Word} {n : Nat}
    (h : StoresChecked s o a n) : ∃ t, o = .next t ∧
      ((32775 < a.toNat ∧ t = raise .addressRange a s) ∨
        (a.toNat ≤ 32775 ∧ 32767 < n ∧ t = raise .valueRange (BitVec.ofNat 16 n) s) ∨
        (a.toNat ≤ 32775 ∧ n ≤ 32767 ∧ StoredAt s a.toNat n t)) := by
  obtain ⟨hillegal, hvalue, hstore⟩ := h
  by_cases ha : 32775 < a.toNat
  · exact ⟨_, hillegal ha, .inl ⟨ha, rfl⟩⟩
  by_cases hn : 32767 < n
  · exact ⟨_, hvalue (by omega) hn, .inr (.inl ⟨by omega, hn, rfl⟩)⟩
  · obtain ⟨t, ht, hstored⟩ := hstore (by omega) (by omega)
    exact ⟨t, ht, .inr (.inr ⟨by omega, by omega, hstored⟩)⟩

/-- The state in which an `in` of two words stores its code: fetched, and the code taken (44_io.md R171, R173). -/
def received (rest : List Word) (s : State) : State := consumeInput rest (afterFetch s 2)

/-- A step at the words 20, w with a code is the checked store of the code from `received` (44_io.md R171). -/
theorem step_input_cons {s : State} {w k : Word} {rest : List Word} (hcode : CodeAt s [20, w])
    (hinput : s.input = k :: rest) : ∃ t, step s = .next (settleWait t) ∧
      ((32775 < w.toNat ∧ t = raise .addressRange w (received rest s)) ∨
        (w.toNat ≤ 32775 ∧ 32767 < k.toNat ∧ t = raise .valueRange k (received rest s)) ∨
        (w.toNat ≤ 32775 ∧ k.toNat ≤ 32767 ∧ StoredAt (received rest s) w.toNat k.toNat t)) := by
  obtain ⟨-, hstep⟩ := runsAs_input w
  have hexec : exec (.input (Dest.ofWord w)) (afterFetch s 2) = (storeSet w k (received rest s)).outcome := by
    rw [exec_input_cons (s := afterFetch s 2) hinput, (addr_ofWord w).1, received]
  obtain ⟨t, ht, hcases⟩ := (storesChecked_storeSet w k (received rest s)).next_cases
  rw [BitVec.ofNat_toNat, BitVec.setWidth_eq] at hcases
  refine ⟨t, ?_, hcases⟩
  rw [hstep s hcode, ← settle_next, ← ht, ← hexec]
  rfl

/-- A code offered to a block found waiting: IN_WAIT is 0 and the code stands first (10_state.md R31). -/
theorem offer_noCode_waiting {s : State} (h : waitsAtIn s) (k : Word) :
    hostEvent (.offer k) (hostEvent .noCode s) =
      { s with input := [k], inWait := false, waitTick := s.waitTick + 1 } := by
  obtain ⟨-, hinput, -⟩ := id h
  rw [hostEvent, hostEvent, settleWait_waits h, offerCodes_nonempty (by simp)]
  simp [hinput]

/-- Settles O44: the offered code is the one the `in` takes, and its store has the three outcomes of `StoreSet`. -/
theorem waitingInCompletesOnOffer : Obligations.WaitingInCompletesOnOffer := by
  unfold Obligations.WaitingInCompletesOnOffer
  intro w k s hcode hinput u
  obtain hu : u = _ := offer_noCode_waiting ((waitsAtIn_iff s).mpr ⟨hinput, w, hcode⟩) k
  have hcode' : CodeAt u [20, w] := hcode.congr (by rw [hu]) (by rw [hu]) (by rw [hu])
  have hpeek : ∀ b, (received [] u).peek b = s.peek b := by rw [hu]; exact fun _ => rfl
  obtain ⟨t, hstep, hcases⟩ := step_input_cons hcode' (by rw [hu])
  have hpc : u.pc = s.pc := by rw [hu]
  refine ⟨by rw [hu], settleWait t, hstep, ?_⟩
  simp only [settleWait_ia, settleWait_pc, settleWait_input, settleWait_peek, settleWait_runState,
    settleWait_faultCode, settleWait_faultInfo]
  rcases hcases with ⟨hw, rfl⟩ | ⟨hw, hk, rfl⟩ | ⟨hw, hk, hstored⟩
  · exact ⟨hpc, congrArg (· + 2) hpc, rfl, by omega, fun _ => ⟨hpeek, rfl, rfl⟩, by omega⟩
  · exact ⟨hpc, congrArg (· + 2) hpc, rfl, by omega, by omega, fun _ _ => ⟨hpeek, rfl, rfl⟩⟩
  · rw [hstored.rest]
    refine ⟨hpc, congrArg (· + 2) hpc, rfl, fun _ _ => ⟨?_, fun b hb => ?_, hcode'.running⟩, by omega, by omega⟩
    · exact BitVec.eq_of_toNat_eq hstored.value
    · exact (hstored.others b hb).trans (hpeek b)

/-- Settles O45: every step ends in `settleWait`, which makes IN_WAIT the wait, and an offer leaves a code to take. -/
theorem waitFlagShowsTheWait : Obligations.WaitFlagShowsTheWait := by
  unfold Obligations.WaitFlagShowsTheWait
  refine ⟨fun s t hstep => ?_, fun s k => ⟨settleWait_inWait s, ?_⟩⟩
  · obtain ⟨-, u, rfl, -⟩ := step_next_cases hstep
    rw [settleWait_inWait, waitsAtIn_settleWait]
  · rw [hostEvent, offerCodes_nonempty (by simp)]

end Sys2Proof.Machine
end

section
/-! What an instruction and a step leave alone, field by field, from the inversions `exec_effect` and `step_next_cases`
(10_state.md sections 2, 4, 6; 20_memory.md section 1; 43_control_transfer.md R150; 44_io.md R172, R173;
60_exceptions.md R191, R192). -/

namespace Sys2Proof.Machine

variable {i : Instr} {s t u : State}

/-! ### Before the last check or store -/

/-- A popped top and a consumed code are all that has moved before an instruction's last check or store. -/
theorem Before.frame (h : Before i s u) :
    u = { s with stack := u.stack, input := u.input, inWait := u.inWait } := by
  cases h <;> rfl

theorem Before.peek (h : Before i s u) (a : Nat) : u.peek a = s.peek a := by
  rw [h.frame]
  rfl

theorem Before.stack (h : Before i s u) :
    u.stack = s.stack ∨ ((∃ a, i = .pop a) ∧ ∃ v, s.stack = u.stack ++ [v]) := by
  cases h with
  | start => exact .inl rfl
  | popped a st v hi hstack => exact .inr ⟨⟨a, hi⟩, v, hstack⟩
  | received => exact .inl rfl

theorem Before.input (h : Before i s u) :
    u.input = s.input ∨ ((∃ a, i = .input a) ∧ ∃ k, s.input = k :: u.input) := by
  cases h with
  | start => exact .inl rfl
  | popped => exact .inl rfl
  | received a k rest hi hinput => exact .inr ⟨⟨a, hi⟩, k, hinput⟩

/-! ### What an instruction leaves alone -/

theorem Effect.ia_params (h : Effect i s t) : t.ia = s.ia ∧ t.params = s.params := by
  cases h with
  | unchanged | halted | jumped | called | returned | pushed | emitted => exact ⟨rfl, rfl⟩
  | raised u _ _ hb | storedCell u _ _ hb | storedReg u _ _ hb =>
    rw [hb.frame]
    exact ⟨rfl, rfl⟩

theorem Effect.stack (h : Effect i s t) : t.stack = s.stack ∨
    ((∃ a, i = .push a ∨ i = .call a) ∧ ∃ v, t.stack = s.stack ++ [v]) ∨
    (((∃ a, i = .pop a) ∨ i = .ret) ∧ ∃ v, s.stack = t.stack ++ [v]) := by
  cases h with
  | unchanged | halted | jumped | emitted => exact .inl rfl
  | called o hi => exact .inr (.inl ⟨⟨o, .inr hi⟩, _, rfl⟩)
  | pushed o hi => exact .inr (.inl ⟨⟨o, .inl hi⟩, _, rfl⟩)
  | returned st v hi hstack => exact .inr (.inr ⟨.inr hi, v, hstack⟩)
  | raised u _ _ hb | storedCell u _ _ hb | storedReg u _ _ hb =>
    rcases hb.stack with hsame | ⟨hpop, hstack⟩
    · exact .inl hsame
    · exact .inr (.inr ⟨.inl hpop, hstack⟩)

theorem Effect.output (h : Effect i s t) :
    t.output = s.output ∨ ((∃ a, i = .out a) ∧ ∃ v, t.output = s.output ++ [v]) := by
  cases h with
  | unchanged | halted | jumped | called | returned | pushed => exact .inl rfl
  | emitted o hi => exact .inr ⟨⟨o, hi⟩, _, rfl⟩
  | raised u _ _ hb | storedCell u _ _ hb | storedReg u _ _ hb =>
    rw [hb.frame]
    exact .inl rfl

theorem Effect.input (h : Effect i s t) :
    t.input = s.input ∨ ((∃ a, i = .input a) ∧ ∃ k, s.input = k :: t.input) := by
  cases h with
  | unchanged | halted | jumped | called | returned | pushed | emitted => exact .inl rfl
  | raised u _ _ hb | storedCell u _ _ hb | storedReg u _ _ hb => exact hb.input

/-- Every word an instruction writes is a data word (20_memory.md R55). -/
theorem Effect.peek (h : Effect i s t) (a : Nat) : t.peek a = s.peek a ∨ (t.peek a).toNat ≤ 32767 := by
  cases h with
  | unchanged | halted | jumped | called | returned | pushed | emitted => exact .inl rfl
  | raised u _ _ hb => exact .inl (hb.peek a)
  | storedCell u b v hb _ hcell hv =>
    rw [peek_writeCell u v hcell, hb.peek]
    split
    · exact .inr hv
    · exact .inl rfl
  | storedReg u b v hb =>
    rw [peek_writeReg, hb.peek]
    split
    · exact .inr (value_word_low _)
    · exact .inl rfl

/-- How an instruction leaves the run state: as it was, halted with the fault status as it was, or faulted
(10_state.md R27, R28). -/
theorem Effect.runState (h : Effect i s t) : t.runState = s.runState ∨
    (t.runState = .halted ∧ t.faultCode = s.faultCode ∧
      (i = .halt ∨ (i = .ret ∧ s.stack = [] ∧ s.params.retEmptyPolicy = .halt))) ∨
    (t.runState = .faulted ∧ t.faultCode ≠ .none ∧ t.faultCode ≠ .loadError ∧
      ∃ u e v, Before i s u ∧ t = raise e v u) := by
  cases h with
  | unchanged | jumped | called | returned | pushed | emitted => exact .inl rfl
  | halted hi => exact .inr (.inl ⟨rfl, rfl, hi⟩)
  | raised u e v hb hnone hload => exact .inr (.inr ⟨rfl, hnone, hload, u, e, v, hb, rfl⟩)
  | storedCell u _ _ hb | storedReg u _ _ hb =>
    rw [hb.frame]
    exact .inl rfl

/-- The pc moves by a branch alone (43_control_transfer.md R150). -/
theorem Effect.pc (h : Effect i s t) : t.pc = s.pc ∨
    (∃ a, i = .jmp a) ∨ (∃ a b, i = .jt a b) ∨ (∃ a b, i = .jf a b) ∨ (∃ a, i = .call a) ∨ i = .ret := by
  cases h with
  | unchanged | halted | pushed | emitted => exact .inl rfl
  | jumped o hi =>
    rcases hi with rfl | ⟨a, rfl | rfl⟩
    · exact .inr (.inl ⟨o, rfl⟩)
    · exact .inr (.inr (.inl ⟨a, o, rfl⟩))
    · exact .inr (.inr (.inr (.inl ⟨a, o, rfl⟩)))
  | called o hi => exact .inr (.inr (.inr (.inr (.inl ⟨o, hi⟩))))
  | returned st v hi => exact .inr (.inr (.inr (.inr (.inr hi))))
  | raised u _ _ hb | storedCell u _ _ hb | storedReg u _ _ hb =>
    rw [hb.frame]
    exact .inl rfl

/-! ### A step -/

/-- What the fetch leaves when it faults: IA latched, the pc as it was or within one of memory, and one of the two
fault codes of the fetch (40_dispatch.md R92, R98). -/
inductive FetchFault (s : State) : State → Prop where
  | mk (e : FaultCode) (info pc : Word) : e = .addressRange ∨ e = .invalidOpcode → pc = s.pc ∨ pc.toNat ≤ 32768 →
      FetchFault s (raise e info (jump pc (latchIa s)))

/-- The inversion of a step, up to IN_WAIT: a fault of the fetch, or the effect of the instruction at the pc. -/
theorem step_effect (h : step s = .next t) : s.runState = .running ∧ ∃ u, t = settleWait u ∧
    (FetchFault s u ∨
      ∃ i, i.wf = true ∧ CodeAt s (encode i) ∧ Effect i (afterFetch s (encode i).length) u) := by
  obtain ⟨hrun, u, ht, hcases⟩ := step_next_cases h
  refine ⟨hrun, u, ht, ?_⟩
  rcases hcases with ⟨-, rfl⟩ | ⟨hpc, -, rfl⟩ | ⟨n, -, -, -, rfl⟩ | ⟨i, hwf, hcode, hexec⟩
  · exact .inl (.mk .addressRange s.pc s.pc (.inl rfl) (.inl rfl))
  · have hnext : (s.pc + 1).toNat = s.pc.toNat + 1 := pc_add_toNat (n := 1) (by omega)
    exact .inl (.mk .invalidOpcode _ (s.pc + 1) (.inr rfl) (.inr (by omega)))
  · exact .inl (.mk .addressRange 32768 32768 (.inl rfl) (.inr (Nat.le_refl _)))
  · exact .inr ⟨i, hwf, hcode, exec_effect hexec⟩

theorem FetchFault.faultCode (h : FetchFault s u) : u.faultCode ≠ .none ∧ u.faultCode ≠ .loadError := by
  obtain ⟨e, info, pc, rfl | rfl, -⟩ := h <;> exact ⟨nofun, nofun⟩

/-- The word at the pc is the opcode of the instruction whose words stand there (30_encoding.md R71). -/
theorem CodeAt.opcode_eq {op : Word} (h : CodeAt s (encode i)) (hop : (encode i).head? = some op) :
    s.mem.read s.pc.toNat = op :=
  Option.some.inj (h.opcode.symm.trans hop)

/-! ### The obligations -/

/-- Settles O18: an instruction that moves the pc past its words is a branch, whose opcode is excluded. -/
theorem nonBranchGoesOn : Obligations.NonBranchGoesOn := by
  unfold Obligations.NonBranchGoesOn
  intro s t hstep hrun hop
  obtain ⟨-, u, rfl, hfault | ⟨i, -, hcode, heffect⟩⟩ := step_effect hstep
  · rw [settleWait_runState] at hrun
    cases hfault
    cases hrun
  · obtain ⟨harity, hlen⟩ := arity_of_head hcode.opcode
    refine ⟨_, harity, ?_⟩
    rw [settleWait_pc, Nat.sub_add_cancel (Nat.pos_of_ne_zero hlen)]
    rcases heffect.pc with hpc | ⟨a, rfl⟩ | ⟨a, b, rfl⟩ | ⟨a, b, rfl⟩ | ⟨a, rfl⟩ | rfl
    · exact hpc
    all_goals
      rw [hcode.opcode_eq rfl] at hop
      exact absurd (by decide) hop

/-- Settles O50: a fetch writes no address, and an instruction writes data words. -/
theorem stepWritesDataWords : Obligations.StepWritesDataWords := by
  unfold Obligations.StepWritesDataWords
  intro s t a hstep hchanged
  obtain ⟨-, u, rfl, hfault | ⟨i, -, -, heffect⟩⟩ := step_effect hstep
  all_goals rw [settleWait_peek] at hchanged ⊢
  · cases hfault
    exact absurd rfl hchanged
  · exact (heffect.peek a).resolve_left hchanged

/-- Settles O51: the four instructions that move the stack, by their opcode words. -/
theorem stackMovesOnlyByItsOpcodes : Obligations.StackMovesOnlyByItsOpcodes := by
  unfold Obligations.StackMovesOnlyByItsOpcodes
  intro s t hstep
  obtain ⟨-, u, rfl, hfault | ⟨i, -, hcode, heffect⟩⟩ := step_effect hstep
  all_goals rw [settleWait_stack]
  · cases hfault
    exact .inl rfl
  · rcases heffect.stack with hsame | ⟨⟨a, rfl | rfl⟩, hgrown⟩ | ⟨⟨a, rfl⟩ | rfl, hshrunk⟩
    · exact .inl hsame
    · exact .inr (.inl ⟨by rw [hcode.opcode_eq rfl]; decide, hgrown⟩)
    · exact .inr (.inl ⟨by rw [hcode.opcode_eq rfl]; decide, hgrown⟩)
    · exact .inr (.inr ⟨by rw [hcode.opcode_eq rfl]; decide, hshrunk⟩)
    · exact .inr (.inr ⟨by rw [hcode.opcode_eq rfl]; decide, hshrunk⟩)

/-- A step takes no code, or the first one by an `in` (44_io.md R173). -/
theorem step_input (h : step s = .next t) : t.input = s.input ∨
    ((s.mem.read s.pc.toNat).toNat = 20 ∧ ∃ k, s.input = k :: t.input) := by
  obtain ⟨-, u, rfl, hfault | ⟨i, -, hcode, heffect⟩⟩ := step_effect h
  all_goals rw [settleWait_input]
  · cases hfault
    exact .inl rfl
  · rcases heffect.input with hsame | ⟨⟨a, rfl⟩, htaken⟩
    · exact .inl hsame
    · exact .inr ⟨by rw [hcode.opcode_eq rfl]; rfl, htaken⟩

/-- Settles O52: `out` alone emits and `in` alone consumes. -/
theorem streamsMoveOnlyByInAndOut : Obligations.StreamsMoveOnlyByInAndOut := by
  unfold Obligations.StreamsMoveOnlyByInAndOut
  refine fun s t hstep => ⟨?_, step_input hstep⟩
  obtain ⟨-, u, rfl, hfault | ⟨i, -, hcode, heffect⟩⟩ := step_effect hstep
  all_goals rw [settleWait_output]
  · cases hfault
    exact .inl rfl
  · rcases heffect.output with hsame | ⟨⟨a, rfl⟩, hemitted⟩
    · exact .inl hsame
    · exact .inr ⟨by rw [hcode.opcode_eq rfl]; rfl, hemitted⟩

/-- Settles O53: IA is latched before the fetch, and nothing writes it or the parameters after. -/
theorem stepLatchesIaKeepsParameters : Obligations.StepLatchesIaKeepsParameters := by
  unfold Obligations.StepLatchesIaKeepsParameters
  intro s t hstep
  obtain ⟨-, u, rfl, hfault | ⟨i, -, -, heffect⟩⟩ := step_effect hstep
  all_goals rw [settleWait_ia, settleWait_params]
  · cases hfault
    exact ⟨rfl, rfl⟩
  · exact heffect.ia_params

/-- Settles O54: the run state moves by a halt or a raise alone. -/
theorem runEndsOnlyByHaltOrFault : Obligations.RunEndsOnlyByHaltOrFault := by
  unfold Obligations.RunEndsOnlyByHaltOrFault
  intro s t hstep
  obtain ⟨hrun, u, rfl, hfault | ⟨i, -, hcode, heffect⟩⟩ := step_effect hstep
  all_goals rw [settleWait_runState, settleWait_faultCode]
  · have hcode := hfault.faultCode
    cases hfault
    exact ⟨hrun, nofun, nofun, fun _ => hcode⟩
  · rcases heffect.runState with hsame | ⟨hhalted, hstatus, hhow⟩ | ⟨hfaulted, hnone, hload, -⟩
    · rw [hsame, afterFetch_runState, hrun]
      exact ⟨rfl, nofun, nofun, nofun⟩
    · rw [hhalted]
      refine ⟨hrun, nofun, fun _ => ⟨hstatus, ?_⟩, nofun⟩
      rcases hhow with rfl | ⟨rfl, hempty, hpolicy⟩
      · exact .inl (by rw [hcode.opcode_eq rfl]; rfl)
      · exact .inr ⟨by rw [hcode.opcode_eq rfl]; rfl, hempty, hpolicy⟩
    · rw [hfaulted]
      exact ⟨hrun, nofun, nofun, fun _ => ⟨hnone, hload⟩⟩

/-- Settles O55: a faulting step is a fault of the fetch, or a raise where only a top or a code has gone. -/
theorem faultingStepWritesNothing : Obligations.FaultingStepWritesNothing := by
  unfold Obligations.FaultingStepWritesNothing
  intro s t hstep hfaulted
  have hinput := step_input hstep
  obtain ⟨hrun, u, rfl, hfault | ⟨i, -, hcode, heffect⟩⟩ := step_effect hstep
  all_goals simp only [settleWait_peek, settleWait_output, settleWait_ia, settleWait_stack]
  · cases hfault
    exact ⟨fun _ => rfl, rfl, rfl, .inl rfl, hinput⟩
  · rw [settleWait_runState] at hfaulted
    rcases heffect.runState with hsame | ⟨hhalted, -⟩ | ⟨-, -, -, u', e, v, hbefore, rfl⟩
    · rw [hfaulted, afterFetch_runState, hrun] at hsame
      cases hsame
    · rw [hfaulted] at hhalted
      cases hhalted
    · refine ⟨hbefore.peek, by rw [hbefore.frame]; rfl, heffect.ia_params.1, ?_, hinput⟩
      rcases hbefore.stack with hsame | ⟨⟨a, rfl⟩, hpopped⟩
      · exact .inl hsame
      · exact .inr ⟨by rw [hcode.opcode_eq rfl]; rfl, hpopped⟩

end Sys2Proof.Machine
end

section
/-! Stores seen from outside the instruction: what the next fetch reads, and which register a destination can reach
(20_memory.md section 3; 10_state.md R22). -/

namespace Sys2Proof.Machine

/-- What `storeOf` announces is the `StoreSet` the instruction ends in. -/
theorem exec_of_storeOf {i : Instr} {s : State} {a : Word} {n : Nat} (h : storeOf i s = some (a, n)) :
    ∃ v u, v.toNat = n ∧ exec i s = (storeSet a v u).outcome := by
  cases i with
  | halt | push | jmp | jt | jf | call | ret | out | noop => cases h
  | set | wmem =>
    cases h
    exact ⟨_, s, rfl, rfl⟩
  | eq =>
    cases h
    exact ⟨_, s, eqResult_toNat .., rfl⟩
  | gt =>
    cases h
    exact ⟨_, s, gtResult_toNat .., rfl⟩
  | add =>
    cases h
    exact ⟨_, s, addResult_toNat .., rfl⟩
  | mult =>
    cases h
    exact ⟨_, s, multResult_toNat .., rfl⟩
  | and =>
    cases h
    exact ⟨_, s, andResult_toNat .., rfl⟩
  | or =>
    cases h
    exact ⟨_, s, orResult_toNat .., rfl⟩
  | not =>
    cases h
    exact ⟨_, s, notResult_toNat .., rfl⟩
  | mod d b c =>
    rw [storeOf] at h
    split at h
    · cases h
    · cases h
      exact ⟨_, s, modResult_toNat .., exec_mod_nonzero ‹_› d⟩
  | rmem d b =>
    rw [storeOf] at h
    split at h
    · cases h
    · cases h
      exact ⟨_, s, rfl, exec_rmem_legal (by omega) d⟩
  | pop d =>
    rw [storeOf] at h
    rcases pop_cases s with ⟨hempty, -⟩ | ⟨st, v, hstack, -⟩
    · rw [hempty] at h
      cases h
    · rw [hstack, List.getLast?_concat] at h
      cases h
      exact ⟨_, _, toNat_setWidth_16 v, exec_pop_concat hstack d⟩
  | input d =>
    rw [storeOf] at h
    rcases receive_cases s with ⟨hnone, -⟩ | ⟨k, rest, hinput, -⟩
    · rw [hnone] at h
      cases h
    · rw [hinput] at h
      cases h
      exact ⟨_, _, rfl, exec_input_cons hinput d⟩

/-- Settles O48: the store leaves the word in its cell, and the next fetch reads the cell. -/
theorem storeIsSeenByNextFetch : Obligations.StoreIsSeenByNextFetch := by
  unfold Obligations.StoreIsSeenByNextFetch
  intro i s t u a n hexec hstore ha hn hmem hpc
  obtain ⟨v, w, rfl, heq⟩ := exec_of_storeOf hstore
  rw [hexec, storeSet_cell (by omega) hn, outcome_done] at heq
  obtain rfl := Host.Outcome.next.inj heq
  subst hpc
  have hread : u.mem.read u.pc.toNat = v := by rw [hmem, writeCell_mem, read_write_same]
  rw [fetchWord_ok ha, hread, BitVec.ofNat_toNat, BitVec.setWidth_eq, jump]

/-- The destination of a well-formed instruction is well-formed. -/
theorem destOf_wf {i : Instr} {d : Dest} (hwf : i.wf = true) (h : destOf i = some d) : d.wf = true := by
  cases i with
  | pop | input =>
    cases h
    exact hwf
  | set | not | rmem =>
    cases h
    exact (Bool.and_eq_true_iff.mp hwf).1
  | eq | gt | add | mult | mod | and | or =>
    cases h
    exact (Bool.and_eq_true_iff.mp (Bool.and_eq_true_iff.mp hwf).1).1
  | halt | push | jmp | jt | jf | wmem | call | ret | out | noop => cases h

/-- A well-formed destination whose address is a register's is that register (30_encoding.md R74). -/
theorem dest_of_reg_addr {d : Dest} (hwf : d.wf = true) (hlo : 32768 ≤ d.addr.toNat) (hhi : d.addr.toNat ≤ 32775) :
    d = .reg (regOfAddr d.addr) := by
  cases d with
  | cell a =>
    have := a.isLt
    rw [addr_cell] at hlo
    omega
  | reg r => rw [regOfAddr_reg]
  | illegal w => exact absurd rfl ((addr_legal_of_wf hwf).mp hhi w)

/-- Only its destination takes an instruction's store to a register (10_state.md R22, 41_data_movement.md R114). -/
theorem destOf_of_targets {i : Instr} {s : State} {a : Word} (hwf : i.wf = true) (h : Targets i s a)
    (hlo : 32768 ≤ a.toNat) (hhi : a.toNat ≤ 32775) : destOf i = some (.reg (regOfAddr a)) := by
  rcases h with ⟨d, hd, rfl⟩ | ⟨o, o', rfl, rfl⟩
  · rw [← dest_of_reg_addr (destOf_wf hwf hd) hlo hhi, hd]
  · have := valueOf_range (Bool.and_eq_true_iff.mp hwf).1 s
    omega

/-- Settles O49: registers are written by a store to a register's address alone, which names the destination. -/
theorem onlyDestinationRegisterChanges : Obligations.OnlyDestinationRegisterChanges := by
  unfold Obligations.OnlyDestinationRegisterChanges
  intro i s t r hwf hexec hdest
  cases exec_effect hexec with
  | unchanged | halted | jumped | called | returned | pushed | emitted => rfl
  | raised u _ _ hb | storedCell u _ _ hb =>
    rw [hb.frame]
    rfl
  | storedReg u a v hb htarget hlo hhi =>
    have hne : regOfAddr a ≠ r := by
      rintro rfl
      exact hdest (destOf_of_targets hwf htarget hlo hhi)
    have hother : (writeReg (regOfAddr a) (v.setWidth 15) u).regs[r] = u.regs[r] :=
      Vector.getElem_set_ne (regOfAddr a).isLt r.isLt (Fin.val_ne_of_ne hne)
    rw [hother, hb.frame]

end Sys2Proof.Machine
end

section
/-! The invariant: every operation of a step keeps it up to IN_WAIT, which the step then settles, and every host event
keeps it (10_state.md sections 3, 4, 6, 7; 70_reset_and_hazards.md section 1). -/

namespace Sys2Proof.Machine

variable {i : Instr} {s t u : State}

/-- The invariant up to IN_WAIT, which is settled at the end of a step only. -/
abbrev InvUpToWait (s : State) : Prop := State.Inv { s with inWait := false }

theorem State.Inv.upToWait (h : s.Inv) : InvUpToWait s := { h with waiting := nofun }

/-- Settling IN_WAIT completes the invariant (10_state.md R31). -/
theorem InvUpToWait.settleWait (h : InvUpToWait s) : (settleWait s).Inv := by
  by_cases hwaits : waitsAtIn s
  · rw [settleWait_waits hwaits]
    exact { h with waiting := fun _ => hwaits }
  · rw [settleWait_else hwaits]
    exact h

/-! ### The operations of a step -/

theorem InvUpToWait.jump {w : Word} (h : InvUpToWait s) (hw : w.toNat ≤ 32768 ∨ 32776 ≤ w.toNat) :
    InvUpToWait (jump w s) := { h with pcRange := hw, waiting := nofun }

theorem InvUpToWait.latchIa (h : InvUpToWait s) : InvUpToWait (latchIa s) := { h with waiting := nofun }

theorem InvUpToWait.emit (h : InvUpToWait s) (v : Word) : InvUpToWait (emit v s) := { h with waiting := nofun }

theorem InvUpToWait.consumeInput (h : InvUpToWait s) (rest : List Word) : InvUpToWait (consumeInput rest s) :=
  { h with waiting := nofun }

theorem InvUpToWait.writeReg (h : InvUpToWait s) (r : Reg) (v : Value) : InvUpToWait (writeReg r v s) :=
  { h with waiting := nofun }

theorem InvUpToWait.writeCell {a : Nat} (h : InvUpToWait s) (ha : a < 32768) (v : Word) :
    InvUpToWait (writeCell a v s) := { h with memory := write_wf h.memory v ha, waiting := nofun }

theorem InvUpToWait.setStack {st : List Value} (h : InvUpToWait s)
    (hdepth : ∀ d, s.params.stackDepth = some d → st.length ≤ d) : InvUpToWait (setStack st s) :=
  { h with depth := hdepth, waiting := nofun }

/-- A raise records a code and its info together (10_state.md R28, R29). -/
theorem InvUpToWait.raise {e : FaultCode} (h : InvUpToWait s) (hnone : e ≠ .none) (hload : e ≠ .loadError)
    (hover : e = .stackOverflow → s.params.stackDepth ≠ none) (info : Word) : InvUpToWait (raise e info s) :=
  { h with
    status := iff_of_true hnone rfl
    info := fun he => absurd he hnone
    noLoadError := hload
    overflow := hover
    waiting := nofun }

/-- A running block has recorded no fault (10_state.md R28). -/
theorem InvUpToWait.faultCode_of_running (h : InvUpToWait s) (hrun : s.runState = .running) : s.faultCode = .none := by
  by_contra hfault
  cases hrun.symm.trans (h.status.mp hfault)

/-- A halt of a running block is no fault (10_state.md R28). -/
theorem InvUpToWait.haltRun (h : InvUpToWait s) (hrun : s.runState = .running) : InvUpToWait (haltRun s) :=
  { h with
    status := iff_of_false (not_not_intro (h.faultCode_of_running hrun)) nofun
    waiting := nofun }

/-- A stack with room takes one more entry (10_state.md R25). -/
theorem InvUpToWait.depth_push (h : InvUpToWait s) (hroom : s.params.stackDepth ≠ some s.stack.length) (v : Value)
    (d : Nat) (hd : s.params.stackDepth = some d) : (s.stack ++ [v]).length ≤ d := by
  have hle : s.stack.length ≤ d := h.depth d hd
  have hne : s.stack.length ≠ d := fun heq => hroom (heq ▸ hd)
  rw [List.length_append, List.length_singleton]
  omega

theorem InvUpToWait.depth_pop {st : List Value} {v : Value} (h : InvUpToWait s) (hstack : s.stack = st ++ [v])
    (d : Nat) (hd : s.params.stackDepth = some d) : st.length ≤ d := by
  have hle : s.stack.length ≤ d := h.depth d hd
  rw [hstack, List.length_append] at hle
  omega

/-! ### A whole instruction -/

theorem Before.invUpToWait (hb : Before i s u) (h : InvUpToWait s) : InvUpToWait u := by
  cases hb with
  | start => exact h
  | popped a st v _ hstack => exact h.setStack (h.depth_pop hstack)
  | received a k rest => exact h.consumeInput rest

/-- A data word is no register's address, so a return address is a legal pc (10_state.md R24). -/
theorem return_pcRange (v : Value) : (v.setWidth 16).toNat ≤ 32768 ∨ 32776 ≤ (v.setWidth 16).toNat :=
  .inl ((value_word_low v).trans (by decide))

/-- The target of a jump or a call is a value, never a register's address (10_state.md R24). -/
theorem target_pcRange {o : Operand} (hwf : o.wf = true) (s : State) :
    (valueOf o s).toNat ≤ 32768 ∨ 32776 ≤ (valueOf o s).toNat := by
  have := valueOf_range hwf s
  omega

theorem jump_target_wf {o : Operand} (hwf : i.wf = true) (hi : i = .jmp o ∨ ∃ a, i = .jt a o ∨ i = .jf a o) :
    o.wf = true := by
  rcases hi with rfl | ⟨a, rfl | rfl⟩
  · exact hwf
  · exact (Bool.and_eq_true_iff.mp hwf).2
  · exact (Bool.and_eq_true_iff.mp hwf).2

/-- Every instruction keeps the invariant up to IN_WAIT, effect by effect. -/
theorem Effect.invUpToWait (he : Effect i s t) (hwf : i.wf = true) (hrun : s.runState = .running)
    (h : InvUpToWait s) : InvUpToWait t := by
  cases he with
  | unchanged => exact h
  | halted => exact h.haltRun hrun
  | jumped o hi => exact h.jump (target_pcRange (jump_target_wf hwf hi) s)
  | called o hi _ hroom =>
    subst hi
    exact (h.setStack (h.depth_push hroom _)).jump (target_pcRange hwf s)
  | returned st v _ hstack => exact (h.setStack (h.depth_pop hstack)).jump (return_pcRange v)
  | pushed o _ _ hroom => exact h.setStack (h.depth_push hroom _)
  | emitted o => exact h.emit _
  | raised u e v hb hnone hload hover =>
    refine (hb.invUpToWait h).raise hnone hload (fun heq => ?_) v
    rw [hb.frame]
    exact hover heq
  | storedCell u a v hb _ hcell => exact (hb.invUpToWait h).writeCell hcell v
  | storedReg u a v hb => exact (hb.invUpToWait h).writeReg _ _

/-- A faulting fetch keeps the invariant up to IN_WAIT. -/
theorem FetchFault.invUpToWait (hf : FetchFault s u) (h : InvUpToWait s) : InvUpToWait u := by
  obtain ⟨e, info, pc, he, hpc⟩ := hf
  have hrange : pc.toNat ≤ 32768 ∨ 32776 ≤ pc.toNat := by
    rcases hpc with rfl | hpc
    · exact h.pcRange
    · exact .inl hpc
  rcases he with rfl | rfl
  · exact (h.latchIa.jump hrange).raise (e := .addressRange) nofun nofun nofun info
  · exact (h.latchIa.jump hrange).raise (e := .invalidOpcode) nofun nofun nofun info

/-- The fetch of the instruction at the pc keeps the invariant: the pc is 32768 at most (10_state.md R24). -/
theorem InvUpToWait.afterFetch (h : InvUpToWait s) {n : Nat} (hfit : s.pc.toNat + n ≤ 32768) :
    InvUpToWait (afterFetch s n) := by
  have hpc : (s.pc + BitVec.ofNat 16 n).toNat ≤ 32768 := by rw [pc_add_toNat hfit]; exact hfit
  exact h.latchIa.jump (.inl hpc)

/-- Settles O57: the fetch, the effect of the instruction and the settling of IN_WAIT keep the invariant in turn. -/
theorem stepKeepsInvariant : Obligations.StepKeepsInvariant := by
  unfold Obligations.StepKeepsInvariant
  intro s t hinv hstep
  obtain ⟨hrun, u, rfl, hfault | ⟨i, hwf, hcode, heffect⟩⟩ := step_effect hstep
  · exact (hfault.invUpToWait hinv.upToWait).settleWait
  · exact (heffect.invUpToWait hwf hrun (hinv.upToWait.afterFetch hcode.inMemory)).settleWait

/-! ### Host events and reachable states -/

/-- Settles O56: the reset values, for every choice of the parameters. -/
theorem resetHasInvariant : Obligations.ResetHasInvariant := by
  unfold Obligations.ResetHasInvariant
  exact fun p =>
    { memory := reset_wf
      status := iff_of_false (not_not_intro rfl) nofun
      info := fun _ => rfl
      noLoadError := nofun
      overflow := nofun
      depth := fun _ _ => Nat.zero_le _
      pcRange := .inl (Nat.zero_le _)
      waiting := nofun }

/-- A block in reset has recorded no fault and does not wait. -/
theorem State.Inv.in_reset (h : s.Inv) (hreset : s.runState = .reset) : s.faultCode = .none ∧ s.inWait = false := by
  constructor
  · by_contra hfault
    cases hreset.symm.trans (h.status.mp hfault)
  · by_contra hwait
    obtain ⟨hrun, -⟩ := h.waiting (Bool.eq_true_of_not_eq_false hwait)
    cases hreset.symm.trans hrun

theorem assertReset_inv (h : s.Inv) : (assertReset s).Inv := by
  by_cases hreset : s.runState = .reset
  · rw [assertReset, if_pos hreset]
    exact h
  · rw [assertReset_not_in_reset hreset]
    exact { resetHasInvariant s.params with status := iff_of_false (not_not_intro rfl) nofun, waiting := nofun }

theorem loadPort_inv (h : s.Inv) (a : Value) (v : Word) : (loadPort a v s).Inv := by
  by_cases hreset : s.runState = .reset
  · obtain ⟨-, hwait⟩ := h.in_reset hreset
    rw [loadPort_in_reset hreset]
    exact { h with
      memory := write_wf h.memory v a.isLt
      waiting := fun hw => by cases hwait.symm.trans hw }
  · rw [loadPort_not_in_reset hreset]
    exact h

theorem releaseReset_inv (h : s.Inv) : (releaseReset s).Inv := by
  by_cases hreset : s.runState = .reset
  · obtain ⟨hfault, hwait⟩ := h.in_reset hreset
    rw [releaseReset_in_reset hreset]
    exact { h with
      status := iff_of_false (not_not_intro hfault) nofun
      waiting := fun hw => by cases hwait.symm.trans hw }
  · rw [releaseReset_not_in_reset hreset]
    exact h

theorem offerCodes_inv (h : s.Inv) (ks : List Word) : (offerCodes ks s).Inv := by
  have hmore : InvUpToWait { s with input := s.input ++ ks } := { h.upToWait with waiting := nofun }
  exact hmore.settleWait

/-- Settles O58: reset and the load port by the run state, the channel's events by the settling of IN_WAIT. -/
theorem hostEventKeepsInvariant : Obligations.HostEventKeepsInvariant := by
  unfold Obligations.HostEventKeepsInvariant
  intro e s hinv
  cases e with
  | assertReset => exact assertReset_inv hinv
  | load a v => exact loadPort_inv hinv a v
  | releaseReset => exact releaseReset_inv hinv
  | offer k => exact offerCodes_inv hinv [k]
  | offerLine ks => exact offerCodes_inv hinv _
  | noCode => exact hinv.upToWait.settleWait

/-- The invariant holds at reset and every step and host event keeps it, so every reachable state has it. -/
theorem Reachable.inv (h : Reachable s) : s.Inv := by
  induction h with
  | reset p => exact resetHasInvariant p
  | step _ hstep ih => exact stepKeepsInvariant _ _ ih hstep
  | host e _ ih => exact hostEventKeepsInvariant e _ ih

/-- An offered code enables the step of a running block (40_dispatch.md R90, 44_io.md R173). -/
theorem step_offered (hrun : s.runState = .running) (k : Word) : ∃ t, step (hostEvent (.offer k) s) = .next t := by
  have hrun' : (hostEvent (.offer k) s).runState = .running := (offerCodes_runState ..).trans hrun
  refine step_not_waiting hrun' fun ⟨_, hinput, _⟩ => ?_
  rw [hostEvent, offerCodes_input] at hinput
  exact List.cons_ne_nil _ _ (List.append_eq_nil_iff.mp hinput).2

/-- Settles O59: the invariant of reachable states, and the step of a running block that does not wait. -/
theorem reachableStatesHaveInvariant : Obligations.ReachableStatesHaveInvariant := by
  unfold Obligations.ReachableStatesHaveInvariant
  intro s hreach
  refine ⟨hreach.inv, fun hrun => ⟨fun hwaits => ?_, fun hwaits => ⟨step_waiting hwaits, fun k => ?_⟩⟩⟩
  · obtain ⟨t, hstep⟩ := step_not_waiting hrun hwaits
    exact ⟨t, hstep, (hreach.step hstep).inv⟩
  · obtain ⟨t, hstep⟩ := step_offered hrun k
    exact ⟨t, hstep, ((hreach.host (.offer k)).step hstep).inv⟩

end Sys2Proof.Machine
end
